-- ==== Sys2Proof/Word.lean ====
section
/-! DEFINITION. The words of the nib execution block: a byte (a tape cell, a program byte, an I/O byte) and a nibble
(an instruction), 00_scope.md R7. -/

namespace Sys2Proof

/-- A tape cell, a program byte, a byte of a channel: 8 bits, unsigned (R7). -/
abbrev Byte := BitVec 8

/-- An instruction as it is encoded: 4 bits (R7, R80). -/
abbrev Nibble := BitVec 4

end Sys2Proof
end

