-- ==== Sys2Proof/Syntax.lean ====
section
/-! DEFINITION. The instructions of the nib ISA, one constructor for each row of spec/opcode_table.json. No
instruction has an operand (30_encoding.md R80, R85). -/

namespace Sys2Proof

/-- One constructor per row of the opcode table. The eight INERT constructors are the eight nibble values that
OPMAP gives no opcode (R83, R84, R170); under the default OPMAP they are the values 8 to F. -/
inductive Instr where
  | incrPtr
  | decrPtr
  | incrVal
  | decrVal
  | write
  | read
  | loopStart
  | loopEnd
  | inert8
  | inert9
  | inertA
  | inertB
  | inertC
  | inertD
  | inertE
  | inertF
  deriving DecidableEq, Repr

/-- The nine classes OPMAP classifies a nibble into: eight opcodes and INERT (R83, R88). -/
inductive OpClass where
  | incrPtr
  | decrPtr
  | incrVal
  | decrVal
  | write
  | read
  | loopStart
  | loopEnd
  | inert
  deriving DecidableEq, Repr

/-- The class of an instruction (R83): the eight INERT rows are one class. -/
def Instr.opClass : Instr → OpClass
  | .incrPtr => .incrPtr
  | .decrPtr => .decrPtr
  | .incrVal => .incrVal
  | .decrVal => .decrVal
  | .write => .write
  | .read => .read
  | .loopStart => .loopStart
  | .loopEnd => .loopEnd
  | .inert8 => .inert
  | .inert9 => .inert
  | .inertA => .inert
  | .inertB => .inert
  | .inertC => .inert
  | .inertD => .inert
  | .inertE => .inert
  | .inertF => .inert

/-- The rows of the opcode table, in its order. -/
def Instr.all : List Instr :=
  [.incrPtr, .decrPtr, .incrVal, .decrVal, .write, .read, .loopStart, .loopEnd,
   .inert8, .inert9, .inertA, .inertB, .inertC, .inertD, .inertE, .inertF]

end Sys2Proof
end

