-- ==== Sys2Proof/Config.lean ====
section
/-! DEFINITION. The hardware parameters (00_scope.md R6, 10_state.md R27): fixed properties of one implementation,
which the spec leaves open. They are plain data, so that a statement can speak of every choice of them. -/

namespace Sys2Proof

/-- EOF_POLICY (R6, R142): what READ leaves in the cell at end of input. -/
inductive EofPolicy where
  | eofZero
  | eofUnchanged
  deriving DecidableEq, Repr, Inhabited

/-- OPMAP (R6, R83): for each of the 16 nibble values its instruction. It is a total function on the nibble
values by its type; that each opcode is the image of exactly one value is `OpMap.wf` (R84).
DESIGN CHOICE (log 4): the eight inert values are told apart by the labels INERT_8 to INERT_F, which execute alike. -/
abbrev OpMap := Vector Instr 16

/-- The spec's default OPMAP (R83, decision D1): the rows of the opcode table in their order. -/
def OpMap.default : OpMap :=
  #v[.incrPtr, .decrPtr, .incrVal, .decrVal, .write, .read, .loopStart, .loopEnd,
     .inert8, .inert9, .inertA, .inertB, .inertC, .inertD, .inertE, .inertF]

/-- The parameters of R6 that are fixed properties of the hardware (R27). STEP and STRICT, the other two rows of
R6's table, are run inputs and stand in the state. -/
structure Params where
  /-- OPMAP -/
  opmap : OpMap
  /-- EOF_POLICY -/
  eofPolicy : EofPolicy
  /-- PTR_WIDTH, the width in bits of `p` -/
  ptrWidth : Nat
  /-- TAPE_MAX, the largest tape length in bytes -/
  tapeMax : Nat
  /-- LSTACK_MAX, the largest loop-stack capacity in elements -/
  lstackMax : Nat
  /-- PROG_MAX, the largest program in source bytes -/
  progMax : Nat
  /-- IP_WIDTH, the width in bits of `ip` and of a loop-stack element -/
  ipWidth : Nat
  /-- STEP_WIDTH, the width in bits of the STEP input -/
  stepWidth : Nat
  deriving DecidableEq, Repr

/-- EOF_POLICY of the machine that `State.reset` starts: R6 gives it no default, so it is left uninterpreted
(log 3). -/
opaque Config.eofPolicy : EofPolicy

/-- The parameters of the machine that `State.reset` starts. DESIGN CHOICE (log 2): the spec leaves every number
open; PTR_WIDTH = 16 is the value of its examples (D4), the others satisfy R6's constraints for every STEP that
fits STEP_WIDTH. OPMAP is the spec's default (log 4). No meaning reads these: it reads the state's own. -/
def Config.params : Params where
  opmap := OpMap.default
  eofPolicy := Config.eofPolicy
  ptrWidth := 16
  tapeMax := 65535
  lstackMax := 65535
  progMax := 32767
  ipWidth := 16
  stepWidth := 16

end Sys2Proof
end

