-- ==== Sys2Proof/WellFormed.lean ====
section
/-! DEFINITION. What a legal parameter set and a legal instruction are. Every nibble is a legal instruction
(30_encoding.md R86), so the checks are on OPMAP (R84), on the parameters (00_scope.md R6, 70_reset_and_hazards.md
R213) and on the run inputs (R213). -/

namespace Sys2Proof

/-- R84: no instruction is the image of two nibble values; with 16 values and 16 instructions each opcode is
then the image of exactly one value and the other eight values are inert. -/
abbrev OpMap.wf (m : OpMap) : Prop := m.toList.Nodup

/-- An instruction has an encoding under a map (R84): some nibble value stands for it. -/
abbrev Instr.wf (m : OpMap) (i : Instr) : Prop := i ∈ m.toList

/-- The constraints of R6 and R213 on the fixed parameters: `TAPE_MAX < 2^PTR_WIDTH` and
`2*PROG_MAX < 2^IP_WIDTH`, beside R84 for OPMAP. -/
abbrev Params.wf (h : Params) : Prop :=
  h.opmap.wf ∧ h.tapeMax < 2 ^ h.ptrWidth ∧ 2 * h.progMax < 2 ^ h.ipWidth

/-- What R213 asks of the STEP input before START: a positive integer that fits STEP_WIDTH bits, and
`TAPE_MAX >= STEP` (R6). -/
abbrev Params.stepOk (h : Params) (step : Nat) : Prop :=
  1 ≤ step ∧ step < 2 ^ h.stepWidth ∧ step ≤ h.tapeMax

/-- A program that the store can hold (R29): `N <= PROG_MAX`. -/
abbrev Params.programFits (h : Params) (bytes : List Byte) : Prop := bytes.length ≤ h.progMax

end Sys2Proof
end

