-- ==== Sys2Proof/Decode.lean ====
section
/-! DEFINITION. The instruction decoder (30_encoding.md R80 to R88) and the encoder and packer (R82, R90). The
decoder is pure and total: every nibble is an instruction, so it rejects nothing (R81, R86). -/

namespace Sys2Proof

/-- Bits [7:4] of a program byte: the instruction at the even position, executed first (R80, R81). -/
def highNibble (b : Byte) : Nibble := b.extractLsb' 4 4

/-- Bits [3:0] of a program byte: the instruction at the odd position (R80, R81). -/
def lowNibble (b : Byte) : Nibble := b.extractLsb' 0 4

/-- `pack(a, b) = {a[3:0], b[3:0]}` (R82). -/
def packNibbles (a b : Nibble) : Byte := a ++ b

/-- `Prog(k)`, decoded on fetch from byte `k >> 1` by `k[0]` (R81, R87, R88); none where `k >= L`. -/
def progNibble (bytes : List Byte) (k : Nat) : Option Nibble :=
  (bytes[k / 2]?).map fun b => if k % 2 = 0 then highNibble b else lowNibble b

/-- The class of a nibble under OPMAP (R83): total, no failure path. -/
def decodeNibble (m : OpMap) (n : Nibble) : Instr := m[n.toNat]'n.isLt

/-- `Op(k)` (00_scope.md R9): the instruction at decoded position `k`; none where `k >= L`. -/
def opAt (m : OpMap) (bytes : List Byte) (k : Nat) : Option Instr :=
  (progNibble bytes k).map (decodeNibble m)

/-- The expanded program of `2N` nibbles that the source describes (R81, R88). -/
def expandProgram : List Byte → List Nibble
  | [] => []
  | b :: bytes => highNibble b :: lowNibble b :: expandProgram bytes

/-- The decoded program of `L = 2N` instructions (R81). -/
def decodeProgram (m : OpMap) (bytes : List Byte) : List Instr :=
  (expandProgram bytes).map (decodeNibble m)

/-- The nibble OPMAP assigns to an instruction (R83, R84). -/
def encode (m : OpMap) (i : Instr) : Nibble := BitVec.ofNat 4 (m.toList.idxOf i)

/-- Packing two nibbles a byte, the first in the high nibble; an odd list gets `fill` in the last low nibble
(R82, R90). -/
def packProgram (fill : Nibble) : List Nibble → List Byte
  | [] => []
  | [a] => [packNibbles a fill]
  | a :: b :: rest => packNibbles a b :: packProgram fill rest

/-- The assembler's packing of an instruction list, padded with one `INERT F` (R90). DESIGN CHOICE (log 30):
under an OPMAP other than the default the fill is the value labelled INERT_F, which need not be 0xF. -/
def assemble (m : OpMap) (instrs : List Instr) : List Byte :=
  packProgram (encode m .inertF) (instrs.map (encode m))

/-- The program store with the nibble at position `k` replaced by `n`; positions the store lacks are filled
with `fill`. For placing a program from outside (log 19); no instruction does this (R64). -/
def putNibble (fill n : Nibble) : List Byte → Nat → List Byte
  | [], 0 => [packNibbles n fill]
  | [], 1 => [packNibbles fill n]
  | [], k + 2 => packNibbles fill fill :: putNibble fill n [] k
  | b :: bytes, 0 => packNibbles n (lowNibble b) :: bytes
  | b :: bytes, 1 => packNibbles (highNibble b) n :: bytes
  | b :: bytes, k + 2 => b :: putNibble fill n bytes k

/-- The nibble of a word numbered as spec/opcode_table.json numbers it: bits [3:0] (R8, R80; log 23). -/
def tableNibble (w : Nat) : Nibble := BitVec.ofNat 4 w

/-- The instruction the decoder reads from a table word: the nibble is laid out as the hardware stores it, in
the high nibble of a program byte, and read at decoded position 0 under the default OPMAP, which is the table's
(R81, R83; log 23). -/
def decodeTableWord (nbits w : Nat) : Option Instr :=
  if nbits < 4 then none
  else opAt OpMap.default [packNibbles (tableNibble w) 0] 0

end Sys2Proof
end

