-- ==== Sys2Proof/Machine/State.lean ====
section
/-! DEFINITION. The state of the block as plain data (10_state.md R20 to R37), the reasons the model stops, and the
state after power-on (70_reset_and_hazards.md R211). -/

namespace Sys2Proof.Machine

open Sys2Proof

/-- STATUS.RUN (R31). -/
inductive RunState where
  | idle
  | running
  | done
  | error
  deriving DecidableEq, Repr

/-- The error kinds of 60_exceptions.md R180. -/
inductive ErrKind where
  | dataIndexOutOfBounds
  | unexpectedLoopEnd
  | unterminatedLoop
  | invalidMemoryStepSize
  | capacityExceeded
  | programTooLarge
  deriving DecidableEq, Repr

/-- STATUS by its fields (R31); every bit of the register belongs to one of them, and the register as a word is
`Status.word`. -/
structure Status where
  /-- RUN, bits [1:0] -/
  run : RunState
  /-- WAIT_IN, bit [2] -/
  waitIn : Bool
  /-- WAIT_OUT, bit [3] -/
  waitOut : Bool
  /-- ERR, bits [6:4]; none is code 0 -/
  err : Option ErrKind
  /-- POLICY, bit [7] -/
  policy : Bool
  deriving DecidableEq, Repr

/-- The hidden sub-state of the dispatch FSM (R36, R106): FETCH; EXEC with the classified instruction; SCAN with
the scan index `j` and the nesting counter `d`; WAIT_IN with a pending request; WAIT_OUT with the pending byte. -/
inductive SubState where
  | fetch
  | exec (i : Instr)
  | scan (j d : Nat)
  | waitIn
  | waitOut (pending : Byte)
  deriving DecidableEq, Repr

/-- The host's answer to an input request (R33). -/
inductive InAnswer where
  | byte (v : Byte)
  | eof
  deriving DecidableEq, Repr

/-- The state of the block, its channels and its inputs. `p`, `ip` and the counts are natural numbers with the
wrapping written out where the spec gives it; their widths are parameters (log 8). -/
structure State where
  /-- The fixed parameters (R6, R27); no step and no host action writes them (log 1). -/
  hw : Params
  /-- The instruction cursor (R21). -/
  ip : Nat
  /-- The data pointer (R23). -/
  p : Nat
  /-- CFG_STEP (R25). -/
  cfgStep : Nat
  /-- CFG_STRICT (R25, R26): true is strict. -/
  cfgStrict : Bool
  /-- STATUS (R31). -/
  status : Status
  /-- ERR_IP (R32). -/
  errIp : Nat
  /-- The tape length (R28). -/
  len : Nat
  /-- The cells of the tape that are not zero, by rising index (R28; `Memory.wf`). -/
  tape : List Host.Cell
  /-- The loop-stack capacity (R30). -/
  cap : Nat
  /-- The live loop-stack elements LS[depth-1], ..., LS[0], the top first (R30; log 6). -/
  loops : List Nat
  /-- The program store B[0..N-1] (R29). -/
  prog : List Byte
  /-- The hidden FSM sub-state (R36). -/
  fsm : SubState
  /-- The STEP input (R35). -/
  stepIn : Nat
  /-- The STRICT input (R35). -/
  strictIn : Bool
  /-- Answers of the host to input requests that are not yet consumed, oldest first (R33; log 12). They outlive a run
  (DESIGN CHOICE, log 27). -/
  inAnswers : List InAnswer
  /-- Whether the host accepts an offered byte (R34; log 13). -/
  outReady : Bool
  /-- The bytes accepted since START, oldest first (R109; the model's own record, log 14). -/
  output : List Byte
  /-- The answers consumed since START, oldest first (R109; the model's own record, log 14). -/
  inTaken : List InAnswer
  deriving DecidableEq, Repr

/-- The model's faults: both are reached only from states that no run start reaches. -/
inductive Fault where
  /-- A tape access with `p >= len` in permissive mode: "records a model fault and takes no step" (R52, D21).
  Raised by INCR_VAL, DECR_VAL, WRITE, READ, LOOP_START. Safe. -/
  | tapeAccessBeyondLen
  /-- A fetch at a position the program store does not hold while `ip != L` (log 9). Raised by the step. Safe. -/
  | fetchBeyondProgram
  deriving DecidableEq, Repr

/-- The model's refusals. -/
inductive Refusal where
  /-- An instruction that has no meaning yet. Raised by no instruction of this model. Safe. -/
  | notModelled (mnemonic : String)
  /-- The host drives a STEP that does not fit STEP_WIDTH bits (log 16). Raised by a host action. Safe. -/
  | stepInputTooWide
  deriving DecidableEq, Repr

/-- What a step, a meaning or a host action answers. -/
abbrev Result := Host.Outcome State Fault Refusal

/-- STATUS at power-on: 0x00 (R211). -/
def Status.reset : Status where
  run := .idle
  waitIn := false
  waitOut := false
  err := none
  policy := false

/-- The state after power-on (R211): STATUS = 0x00, ERR_IP = 0, CFG_STRICT = 0. R211 leaves every other element
unspecified until the first run start; the values here are DESIGN CHOICE (log 5), and no rule reads them in IDLE. -/
def State.reset : State where
  hw := Config.params
  ip := 0
  p := 0
  cfgStep := 0
  cfgStrict := false
  status := Status.reset
  errIp := 0
  len := 0
  tape := []
  cap := 0
  loops := []
  prog := []
  fsm := .fetch
  stepIn := 0
  strictIn := false
  inAnswers := []
  outReady := true
  output := []
  inTaken := []

end Sys2Proof.Machine
end

