-- ==== Sys2Proof/Machine/Ops.lean ====
section
/-! DEFINITION. The named operations of the block: the tape's cells and `Grow` (20_memory.md), the loop stack's
`Push` and `Pop`, fetch and the skip scan, retiring an instruction, `raise` (60_exceptions.md R187), the STATUS
word, and run start (70_reset_and_hazards.md R210). -/

namespace Sys2Proof.Machine

open Sys2Proof

/-! ### The tape's cells as a canonical list -/

/-- What a cell that is not listed reads as: a created cell that was never written is 0 (R28, R53, R69; log 22). -/
def Memory.unlisted : Byte := 0

/-- The canonical form: indices strictly rising, no cell listed that holds the unlisted value. -/
abbrev Memory.wf (m : List Host.Cell) : Prop :=
  m.Pairwise (fun c d => c.1 < d.1) ∧ ∀ c ∈ m, c.2 ≠ Memory.unlisted

/-- The byte at index `a`. -/
def Memory.read : List Host.Cell → Nat → Byte
  | [], _ => Memory.unlisted
  | c :: m, a => if c.1 = a then c.2 else Memory.read m a

/-- A cell in front of a list, left out if it holds the unlisted value. -/
def Memory.consCell (a : Nat) (v : Byte) (m : List Host.Cell) : List Host.Cell :=
  if v = Memory.unlisted then m else (a, v) :: m

/-- The byte at index `a` set to `v`, in canonical form. -/
def Memory.write : List Host.Cell → Nat → Byte → List Host.Cell
  | [], a, v => Memory.consCell a v []
  | c :: m, a, v =>
    if a < c.1 then Memory.consCell a v (c :: m)
    else if a = c.1 then Memory.consCell a v m
    else c :: Memory.write m a v

/-- The bytes at `lo .. lo+n-1` set to 0. -/
def Memory.zeroRange (m : List Host.Cell) (lo n : Nat) : List Host.Cell :=
  m.filter fun c => decide (c.1 < lo ∨ lo + n ≤ c.1)

/-! ### Views of the state -/

/-- `depth` (R30): the number of live loop-stack elements (log 6). -/
def State.depth (s : State) : Nat := s.loops.length

/-- `L = 2N` (R29; log 7). -/
def State.progLen (s : State) : Nat := 2 * s.prog.length

/-- `LS[k]` for `k < depth` (R30): the list holds the top first. -/
def State.loopElem (s : State) (k : Nat) : Option Nat := s.loops.reverse[k]?

/-- `T[a]` as the tape holds it; the cell exists where `a < len` (R28). -/
def State.cell (s : State) (a : Nat) : Byte := Memory.read s.tape a

/-- The two bits of RUN (R31). -/
def RunState.code : RunState → BitVec 2
  | .idle => 0
  | .running => 1
  | .done => 2
  | .error => 3

/-- The error codes of R180; 0 is no error and 7 is never produced. -/
def ErrKind.code : ErrKind → BitVec 3
  | .dataIndexOutOfBounds => 1
  | .unexpectedLoopEnd => 2
  | .unterminatedLoop => 3
  | .invalidMemoryStepSize => 4
  | .capacityExceeded => 5
  | .programTooLarge => 6

/-- STATUS.ERR (R31). -/
def Status.errCode (t : Status) : BitVec 3 :=
  match t.err with
  | none => 0
  | some k => k.code

/-- STATUS as the host reads it (R31): POLICY[7], ERR[6:4], WAIT_OUT[3], WAIT_IN[2], RUN[1:0]. -/
def Status.word (t : Status) : BitVec 8 :=
  BitVec.ofBool t.policy ++ t.errCode ++ BitVec.ofBool t.waitOut ++ BitVec.ofBool t.waitIn ++ t.run.code

/-! ### Fetch and the skip scan -/

/-- `Op(ip)` (R101): none where `ip >= L`. -/
def fetchInstr (s : State) : Option Instr := opAt s.hw.opmap s.prog s.ip

/-- The scan loop of R151 at index `j` with nesting counter `d`; `fuel` is the number of positions left. -/
def skipScanFrom (m : OpMap) (bytes : List Byte) : (fuel j d : Nat) → Option Nat
  | 0, _, _ => none
  | fuel + 1, j, d =>
    if opAt m bytes j = some .loopStart then skipScanFrom m bytes fuel (j + 1) (d + 1)
    else if opAt m bytes j = some .loopEnd then
      if d - 1 = 0 then some j else skipScanFrom m bytes fuel (j + 1) (d - 1)
    else skipScanFrom m bytes fuel (j + 1) d

/-- `SkipScan(start)` (R151): the matching LOOP_END, or none where the scan reaches L. -/
def skipScan (s : State) (start : Nat) : Option Nat :=
  skipScanFrom s.hw.opmap s.prog (s.progLen - (start + 1)) (start + 1) 1

/-! ### Completing an instruction, and taking an error -/

/-- An instruction completes with the instruction cursor at `pos` (R102); the FSM is back at FETCH (R106). -/
def State.retire (pos : Nat) (s : State) : State := { s with ip := pos, fsm := .fetch }

/-- `raise E(pos)` (R187): RUN, ERR, the wait bits and ERR_IP are written, and no other architectural state. It is a
next state, not a fault of the model (log 9). The hidden FSM rests in FETCH (log 20). -/
def State.raise (k : ErrKind) (pos : Nat) (s : State) : State :=
  { s with
    status := { s.status with run := .error, err := some k, waitIn := false, waitOut := false }
    errIp := pos
    fsm := .fetch }

/-- The run ends normally (R101, R103): RUN becomes DONE. -/
def State.finish (s : State) : State :=
  { s with status := { s.status with run := .done }, fsm := .fetch }

/-! ### Tape growth and the loop stack -/

/-- `Grow()` (R53): none where `len + STEP > TAPE_MAX`, which raises CapacityExceeded. -/
def growTape (s : State) : Option State :=
  if s.hw.tapeMax < s.len + s.cfgStep then none
  else some { s with tape := Memory.zeroRange s.tape s.len s.cfgStep, len := s.len + s.cfgStep }

/-- `Push(v)` (R60): none where the stack must grow and `cap + STEP > LSTACK_MAX`, which raises
CapacityExceeded. -/
def pushLoop (v : Nat) (s : State) : Option State :=
  if s.depth = s.cap then
    if s.hw.lstackMax < s.cap + s.cfgStep then none
    else some { s with cap := s.cap + s.cfgStep, loops := v :: s.loops }
  else some { s with loops := v :: s.loops }

/-! ### Holding on a channel -/

/-- Held on an input request (R33, R196): WAIT_IN is 1 and nothing else changes. -/
def State.holdIn (s : State) : State :=
  { s with status := { s.status with waitIn := true }, fsm := .waitIn }

/-- Held on an offered byte (R34, R196): WAIT_OUT is 1 and nothing else changes. -/
def State.holdOut (v : Byte) (s : State) : State :=
  { s with status := { s.status with waitOut := true }, fsm := .waitOut v }

/-- The byte on offer: the pending one while held (R36), else the one `Emit` is called with. -/
def State.offered (v : Byte) (s : State) : Byte :=
  match s.fsm with
  | .waitOut b => b
  | .fetch => v
  | .exec _ => v
  | .scan _ _ => v
  | .waitIn => v

/-! ### Run start -/

/-- START samples the inputs (R210, first lines): CFG_STEP, CFG_STRICT and POLICY. The STRICT input then reads 0
until the host sets it again (D18; log 17), and the records of the run begin empty (log 14). DESIGN CHOICE (log 27):
answers the host gave and no READ consumed stay queued. -/
def State.sampleInputs (s : State) : State :=
  { s with
    cfgStep := s.stepIn
    cfgStrict := s.strictIn
    status := { s.status with policy := s.strictIn }
    strictIn := false
    output := []
    inTaken := [] }

/-- The initialisation of R210 after its checks. DESIGN CHOICE (log 27): the queue of answers is not emptied. -/
def State.initRun (s : State) : State :=
  { s with
    ip := 0
    p := 0
    len := s.cfgStep
    tape := []
    cap := s.cfgStep
    loops := []
    errIp := 0
    fsm := .fetch
    status := { s.status with run := .running, waitIn := false, waitOut := false, err := none } }

/-- `RunStart()` (R210): sample, check STEP then N (R184, R186, R189), initialise. DESIGN CHOICE
(log 27): what the host drives on the channels stays, so answers left over from one run answer the next run's
READs. -/
def runStart (s : State) : State :=
  let t := s.sampleInputs
  if t.cfgStep = 0 then t.raise .invalidMemoryStepSize 0
  else if t.hw.progMax < t.prog.length then t.raise .programTooLarge 0
  else t.initRun

/-! ### Placing an instruction where the next step fetches it -/

/-- A run in which the next step fetches position `ip`, not held on a channel. A block that is not RUNNING is
started on an empty program with the STEP input, or with 1 where the host has set none (log 19). -/
def State.readyToFetch (s : State) : State :=
  if s.status.run = .running then
    { s with status := { s.status with waitIn := false, waitOut := false }, fsm := .fetch }
  else
    { s with prog := [], stepIn := if s.stepIn = 0 then 1 else s.stepIn }.sampleInputs.initRun

/-- The program store with an instruction at position `ip`, under the state's own OPMAP (log 19, log 23). -/
def State.placeInstr (i : Instr) (s : State) : State :=
  { s with prog := putNibble (encode s.hw.opmap .inertF) (encode s.hw.opmap i) s.prog s.ip }

end Sys2Proof.Machine
end

