-- ==== Sys2Proof/Machine/Flags.lean ====
section
/-! DEFINITION. The engine has no status flags and no condition codes (10_state.md R24): no instruction sets one.
The one condition an instruction tests is the zero test of LOOP_START, which is evaluated and not stored, and the
one condition on the loop stack is whether it is empty (R24, R152). -/

namespace Sys2Proof.Machine

open Sys2Proof

/-- The zero test `T[p] == 0` (R24, R150). -/
def cellIsZero (v : Byte) : Bool := v == 0

/-- Whether the loop stack is empty, `depth == 0` (R24, R152). -/
def State.noOpenLoop (s : State) : Bool := s.depth == 0

end Sys2Proof.Machine
end

