-- ==== Sys2Proof/Machine/Operands.lean ====
section
/-! DEFINITION. The implicit operands (30_encoding.md R85): the current cell `T[p]` with its bounds condition
(20_memory.md R51, R52, R56, R57), the two channels (10_state.md R33, R34), and the wrapping arithmetic of `p` and of
a cell (41_pointer.md, 42_cell.md). -/

namespace Sys2Proof.Machine

open Sys2Proof

/-- `InBounds(p)`: `p < len`, unsigned (R56). -/
abbrev State.inBounds (s : State) : Prop := s.p < s.len

/-- The current cell as an operand. The bounds check comes before anything else (R56, R181, R189): a strict access
outside the tape raises DataIndexOutOfBounds at `ip`; a permissive one, which no run reaches (R57), is a fault of
the model (R52, D21). Otherwise `act` is given `T[p]`. DESIGN CHOICE (log 29): the fault comes for every
instruction that names `T[p]`, a permissive READ before its input request too, also where it would write nothing. -/
def accessCell (s : State) (act : Byte → Result) : Result :=
  if s.inBounds then act (s.cell s.p)
  else if s.cfgStrict then .next (s.raise .dataIndexOutOfBounds s.ip)
  else .fault .tapeAccessBeyondLen

/-- `MemWrite(p, 1, v)` (R52): sets the current cell and no other state. -/
def State.setCell (v : Byte) (s : State) : State := { s with tape := Memory.write s.tape s.p v }

/-- `(p + 1) mod 2^PTR_WIDTH` (R120). -/
def State.nextPtr (s : State) : Nat := (s.p + 1) % 2 ^ s.hw.ptrWidth

/-- `(p - 1) mod 2^PTR_WIDTH` (R121). -/
def State.prevPtr (s : State) : Nat := (s.p + (2 ^ s.hw.ptrWidth - 1)) % 2 ^ s.hw.ptrWidth

/-- The host's acceptance of the byte on offer (R34): the byte is delivered once and the instruction completes. -/
def State.acceptOut (b : Byte) (s : State) : State :=
  { s with
    output := s.output ++ [b]
    status := { s.status with waitOut := false } }.retire (s.ip + 1)

/-- `Emit(v)` (R34, R140): delivered where the host accepts, else held in WAIT_OUT. -/
def emit (v : Byte) (s : State) : State :=
  if s.outReady then s.acceptOut (s.offered v) else s.holdOut (s.offered v)

/-- What an answer writes to the current cell (R141, R142): the byte; at end of input 0 or nothing, by
EOF_POLICY. -/
def State.storeAnswer (a : InAnswer) (s : State) : State :=
  match a with
  | .byte v => s.setCell v
  | .eof =>
    match s.hw.eofPolicy with
    | .eofZero => s.setCell 0
    | .eofUnchanged => s

/-- An answer ends the hold and completes READ (R33, R141): it is consumed, oldest first. -/
def State.takeAnswer (a : InAnswer) (rest : List InAnswer) (s : State) : State :=
  { s.storeAnswer a with
    inAnswers := rest
    inTaken := s.inTaken ++ [a]
    status := { s.status with waitIn := false } }.retire (s.ip + 1)

/-- `Input()` and the write of its answer (R33, R141): held in WAIT_IN where the host has not answered. -/
def inputByte (s : State) : State :=
  match s.inAnswers with
  | [] => s.holdIn
  | a :: rest => s.takeAnswer a rest

end Sys2Proof.Machine
end

