-- ==== Sys2Proof/Machine/Cell.lean ====
section
/-! DEFINITION. The cell arithmetic instructions (42_cell.md). -/

namespace Sys2Proof.Machine

open Sys2Proof

/-- INCR_VAL (R130): `T[p] <- (T[p] + 1) mod 256`. -/
def execIncrVal (s : State) : Result :=
  accessCell s fun v => .next ((s.setCell (v + 1)).retire (s.ip + 1))

/-- DECR_VAL (R131): `T[p] <- (T[p] - 1) mod 256`. -/
def execDecrVal (s : State) : Result :=
  accessCell s fun v => .next ((s.setCell (v - 1)).retire (s.ip + 1))

end Sys2Proof.Machine
end

