-- ==== Sys2Proof/Machine/Inert.lean ====
section
/-! DEFINITION. The eight inert nibble values (45_inert.md R170): a no-op that only advances `ip`, without a bounds
check, under either policy. -/

namespace Sys2Proof.Machine

open Sys2Proof

/-- INERT (R170): `ip <- ip + 1`. -/
def inertAdvance (s : State) : Result := .next (s.retire (s.ip + 1))

/-- INERT_8 (R170). -/
def execInert8 (s : State) : Result := inertAdvance s

/-- INERT_9 (R170). -/
def execInert9 (s : State) : Result := inertAdvance s

/-- INERT_A (R170). -/
def execInertA (s : State) : Result := inertAdvance s

/-- INERT_B (R170). -/
def execInertB (s : State) : Result := inertAdvance s

/-- INERT_C (R170). -/
def execInertC (s : State) : Result := inertAdvance s

/-- INERT_D (R170). -/
def execInertD (s : State) : Result := inertAdvance s

/-- INERT_E (R170). -/
def execInertE (s : State) : Result := inertAdvance s

/-- INERT_F (R170). -/
def execInertF (s : State) : Result := inertAdvance s

end Sys2Proof.Machine
end

