-- ==== Sys2Proof/Machine/Io.lean ====
section
/-! DEFINITION. The I/O instructions (43_io.md). A held instruction answers a next state with its wait bit set and
`ip` unmoved; the next step runs it again and completes it once the host has acted (10_state.md R33, R34; log 11). -/

namespace Sys2Proof.Machine

open Sys2Proof

/-- WRITE (R140): the bounds check, then `Emit(T[p])`. -/
def execWrite (s : State) : Result :=
  accessCell s fun v => .next (emit v s)

/-- READ (R141): the bounds check, then one input request. DESIGN CHOICE (log 29): the permissive fault outside the
tape, which no run reaches, comes before the request. -/
def execRead (s : State) : Result :=
  accessCell s fun _ => .next (inputByte s)

end Sys2Proof.Machine
end

