-- ==== Sys2Proof/Machine/Loop.lean ====
section
/-! DEFINITION. The loop instructions (44_loop.md). -/

namespace Sys2Proof.Machine

open Sys2Proof

/-- LOOP_START with a zero cell (R150, R151): one past the matching LOOP_END, or UnterminatedLoop (R183). -/
def skipLoop (s : State) : State :=
  match skipScan s s.ip with
  | some m => s.retire (m + 1)
  | none => s.raise .unterminatedLoop s.ip

/-- LOOP_START with a non-zero cell (R150): its own position is pushed, or CapacityExceeded (R185). -/
def enterLoop (s : State) : State :=
  match pushLoop s.ip s with
  | some t => t.retire (s.ip + 1)
  | none => s.raise .capacityExceeded s.ip

/-- LOOP_START (R150): the bounds check, then the zero test. -/
def execLoopStart (s : State) : Result :=
  accessCell s fun v => .next (if cellIsZero v then skipLoop s else enterLoop s)

/-- LOOP_END (R152) with `Pop()` (R61): it jumps to the popped position with no advance; on an empty stack strict
raises UnexpectedLoopEnd (R182) and permissive only advances. -/
def execLoopEnd (s : State) : Result :=
  match s.loops with
  | [] =>
    if s.cfgStrict then .next (s.raise .unexpectedLoopEnd s.ip)
    else .next (s.retire (s.ip + 1))
  | v :: rest => .next ({ s with loops := rest }.retire v)

end Sys2Proof.Machine
end

