-- ==== Sys2Proof/Machine/Pointer.lean ====
section
/-! DEFINITION. The pointer instructions (41_pointer.md). -/

namespace Sys2Proof.Machine

open Sys2Proof

/-- INCR_PTR (R120), the same under both policies: growth only where the incremented pointer equals `len`, and
CapacityExceeded with nothing changed where growth is not possible (R185). -/
def execIncrPtr (s : State) : Result :=
  if s.nextPtr = s.len then
    match growTape s with
    | some t => .next ({ t with p := s.nextPtr }.retire (s.ip + 1))
    | none => .next (s.raise .capacityExceeded s.ip)
  else .next ({ s with p := s.nextPtr }.retire (s.ip + 1))

/-- DECR_PTR (R121): strict wraps, permissive is a no-op at 0; no error under either policy. -/
def execDecrPtr (s : State) : Result :=
  if s.cfgStrict then .next ({ s with p := s.prevPtr }.retire (s.ip + 1))
  else if s.p ≠ 0 then .next ({ s with p := s.p - 1 }.retire (s.ip + 1))
  else .next (s.retire (s.ip + 1))

end Sys2Proof.Machine
end

