-- ==== Sys2Proof/Machine/Dispatch.lean ====
section
/-! DEFINITION. The dispatch of 40_dispatch.md R101: one arm per instruction, no wildcard. -/

namespace Sys2Proof.Machine

open Sys2Proof

def exec (i : Instr) (s : State) : Host.Outcome State Fault Refusal :=
  match i with
  | .incrPtr => Sys2Proof.Machine.execIncrPtr s
  | .decrPtr => Sys2Proof.Machine.execDecrPtr s
  | .incrVal => Sys2Proof.Machine.execIncrVal s
  | .decrVal => Sys2Proof.Machine.execDecrVal s
  | .write => Sys2Proof.Machine.execWrite s
  | .read => Sys2Proof.Machine.execRead s
  | .loopStart => Sys2Proof.Machine.execLoopStart s
  | .loopEnd => Sys2Proof.Machine.execLoopEnd s
  | .inert8 => Sys2Proof.Machine.execInert8 s
  | .inert9 => Sys2Proof.Machine.execInert9 s
  | .inertA => Sys2Proof.Machine.execInertA s
  | .inertB => Sys2Proof.Machine.execInertB s
  | .inertC => Sys2Proof.Machine.execInertC s
  | .inertD => Sys2Proof.Machine.execInertD s
  | .inertE => Sys2Proof.Machine.execInertE s
  | .inertF => Sys2Proof.Machine.execInertF s

end Sys2Proof.Machine
end

