-- ==== Sys2Proof/Machine/Step.lean ====
section
/-! DEFINITION. One architectural step (40_dispatch.md R101, R110), and the placing of an instruction where the next
step fetches it. -/

namespace Sys2Proof.Machine

open Sys2Proof

/-- One step. RUNNING: DONE at `ip == L`, else the instruction at `ip` (R101, R103). Outside RUNNING no instruction
executes and the state is frozen (R37, R100; log 10). A held READ or WRITE is run again (log 11). -/
def step (s : State) : Host.Outcome State Fault Refusal :=
  match s.status.run with
  | .running =>
    if s.ip = s.progLen then .next s.finish
    else
      match fetchInstr s with
      | some i => exec i s
      | none => .fault .fetchBeyondProgram
  | .idle => .next s
  | .done => .next s
  | .error => .next s

/-- `s` with the instruction of table word `w` placed where `step` fetches next (log 19): the program is loaded and
the run started where the block is not RUNNING. A row has 4 bits, so `nbits` selects nothing. -/
def State.withFetchWord (s : State) (_nbits w : Nat) : State :=
  s.readyToFetch.placeInstr (decodeNibble OpMap.default (tableNibble w))

end Sys2Proof.Machine
end

