-- ==== Sys2Proof/Machine/Assembler.lean ====
section
/-! DEFINITION. The assembly text of 30_encoding.md R89 to R91: one instruction a line, by its mnemonic or a short
form. It is notation only; no meaning depends on it. -/

namespace Sys2Proof.Machine

open Sys2Proof

/-- The hex digit of a nibble value (R89). -/
def hexDigit (n : Nibble) : Char := "0123456789ABCDEF".toList.getD n.toNat '0'

/-- The line that stands for an instruction (R89): its mnemonic; an inert value is `INERT n` with `n` the nibble
value in hex under the map. -/
def asmLine (m : OpMap) (i : Instr) : List Char :=
  match i.opClass with
  | .incrPtr => "INCR_PTR".toList
  | .decrPtr => "DECR_PTR".toList
  | .incrVal => "INCR_VAL".toList
  | .decrVal => "DECR_VAL".toList
  | .write => "WRITE".toList
  | .read => "READ".toList
  | .loopStart => "LOOP_START".toList
  | .loopEnd => "LOOP_END".toList
  | .inert => "INERT ".toList ++ [hexDigit (encode m i)]

/-- The short forms of R89. -/
def shortForms : List (Char × Instr) :=
  [('[', .loopStart), (']', .loopEnd), ('>', .incrPtr), ('<', .decrPtr),
   ('+', .incrVal), ('-', .decrVal), ('.', .write), (',', .read)]

/-- The instruction a line stands for (R89): a short form, or the line of one of the table's rows; none for any
other text. There are no pseudo-instructions (R91). -/
def parseLine (m : OpMap) (line : List Char) : Option Instr :=
  match shortForms.find? (fun f => line == [f.1]) with
  | some f => some f.2
  | none => Instr.all.find? (fun i => line == asmLine m i)

/-- The instructions of a list of lines; none if one of them is no instruction. -/
def parseLines (m : OpMap) : List (List Char) → Option (List Instr)
  | [] => some []
  | line :: rest =>
    match parseLine m line, parseLines m rest with
    | some i, some is => some (i :: is)
    | _, _ => none

/-- The program bytes of a list of lines (R89, R90). -/
def assembleLines (m : OpMap) (lines : List (List Char)) : Option (List Byte) :=
  (parseLines m lines).map (assemble m)

end Sys2Proof.Machine
end

