-- ==== Sys2Proof/Machine/HostPort.lean ====
section
/-! DEFINITION. The host interface (10_state.md R33 to R37, 70_reset_and_hazards.md R210 to R214): what the outside
world can do to the block between two steps, and what it can read. -/

namespace Sys2Proof.Machine

open Sys2Proof

/-- What the host can do (R33, R34, R35). -/
inductive HostAct where
  /-- Load `B[0..N-1]` and `N` (R35). -/
  | load (bytes : List Byte)
  /-- Set the STEP input (R35). -/
  | setStep (n : Nat)
  /-- Set the STRICT input (R35). -/
  | setStrict (b : Bool)
  /-- Issue START (R35, R210). -/
  | start
  /-- Answer an input request (R33; answers queue up, log 12). -/
  | answer (a : InAnswer)
  /-- Become ready, or not ready, to accept an offered byte (R34; log 13). -/
  | setOutReady (b : Bool)
  deriving DecidableEq, Repr

/-- A load (R35): ignored while RUNNING (R214). -/
def hostLoad (bytes : List Byte) (s : State) : State :=
  if s.status.run = .running then s else { s with prog := bytes }

/-- Setting the STEP input: only while RUN != 1 (R35; log 18); a value wider than STEP_WIDTH bits is refused
(R213; log 16). -/
def hostSetStep (n : Nat) (s : State) : Result :=
  if s.status.run = .running then .next s
  else if n < 2 ^ s.hw.stepWidth then .next { s with stepIn := n }
  else .refused .stepInputTooWide

/-- Setting the STRICT input: only while RUN != 1 (R35; log 18). -/
def hostSetStrict (b : Bool) (s : State) : State :=
  if s.status.run = .running then s else { s with strictIn := b }

/-- START: ignored while RUNNING (R35, R100), else run start (R210). -/
def hostStart (s : State) : State :=
  if s.status.run = .running then s else runStart s

/-- A host action on the state. -/
def hostAct (a : HostAct) (s : State) : Result :=
  match a with
  | .load bytes => .next (hostLoad bytes s)
  | .setStep n => hostSetStep n s
  | .setStrict b => .next (hostSetStrict b s)
  | .start => .next (hostStart s)
  | .answer x => .next { s with inAnswers := s.inAnswers ++ [x] }
  | .setOutReady b => .next { s with outReady := b }

/-- What happens next to the block: a step of the engine or an action of the host. A list of events is one
interleaving of the two. -/
inductive Event where
  | engine
  | host (a : HostAct)
  deriving DecidableEq, Repr

/-- The block's answer to one event. -/
def onEvent (e : Event) (s : State) : Result :=
  match e with
  | .engine => step s
  | .host a => hostAct a s

/-- The block's answer to a list of events, first to last; it stops at the first fault or refusal. -/
def onEvents : List Event → State → Result
  | [], s => .next s
  | e :: rest, s =>
    match onEvent e s with
    | .next t => onEvents rest t
    | .fault f => .fault f
    | .refused r => .refused r

/-- `f` applied `k` times, stopping at the first fault or refusal. -/
def iterate (f : State → Result) : Nat → State → Result
  | 0, s => .next s
  | k + 1, s =>
    match f s with
    | .next t => iterate f k t
    | .fault r => .fault r
    | .refused r => .refused r

/-- `k` steps of the engine with no action of the host between them. -/
def runFor (k : Nat) (s : State) : Result := iterate step k s

/-- A platform reset (D25, R194), if the platform has one: IDLE with power-on values; the parameters and what the
host drives stay (log 21). It is no host action of R35. -/
def platformReset (s : State) : State :=
  { State.reset with
    hw := s.hw
    stepIn := s.stepIn
    strictIn := s.strictIn
    inAnswers := s.inAnswers
    outReady := s.outReady }

/-- The engine state the host may inspect between runs (R35, R37; before the first run: log 28). -/
structure Frozen where
  errIp : Nat
  ip : Nat
  p : Nat
  len : Nat
  cells : List Byte
  depth : Nat
  loops : List Nat
  cap : Nat
  deriving DecidableEq, Repr

/-- What the host reads: STATUS at any time; ERR_IP and the frozen state only between runs (R35, R37, R74). -/
structure HostView where
  status : BitVec 8
  frozen : Option Frozen
  deriving DecidableEq, Repr

/-- The host's view of the block (R35, R74). The loop stack is listed from LS[0] up.
DESIGN CHOICE (log 28): IDLE before the first run counts as between runs, so the host then reads the power-on values of
log 5. -/
def hostView (s : State) : HostView where
  status := s.status.word
  frozen :=
    if s.status.run = .running then none
    else
      some
        { errIp := s.errIp
          ip := s.ip
          p := s.p
          len := s.len
          cells := (List.range s.len).map s.cell
          depth := s.depth
          loops := s.loops.reverse
          cap := s.cap }

/-- The observable result of a run (R109, D24). -/
structure Observation where
  output : List Byte
  run : RunState
  err : Option ErrKind
  errIp : Nat
  inTaken : List InAnswer
  deriving DecidableEq, Repr

/-- The observation of R109. -/
def observe (s : State) : Observation where
  output := s.output
  run := s.status.run
  err := s.status.err
  errIp := s.errIp
  inTaken := s.inTaken

/-- The source's exit code (R191): 0 at DONE, 1 at ERROR; none while the run has not ended. -/
def exitCode (s : State) : Option Nat :=
  match s.status.run with
  | .idle => none
  | .running => none
  | .done => some 0
  | .error => some 1

end Sys2Proof.Machine
end

