-- ==== Sys2Proof/Machine/Fsm.lean ====
section
/-! DEFINITION. The dispatch FSM by its internal steps (40_dispatch.md R106, 10_state.md R36): FETCH, EXEC, SCAN one
position a step, WAIT_OUT, WAIT_IN. No program observes it; that it performs the architectural step is a claim. -/

namespace Sys2Proof.Machine

open Sys2Proof

/-- FETCH: reads `Prog(ip)` and classifies it, or ends the run at `ip == L` (R101, R106). -/
def fsmFetch (s : State) : Result :=
  if s.ip = s.progLen then .next s.finish
  else
    match fetchInstr s with
    | some i => .next { s with fsm := .exec i }
    | none => .fault .fetchBeyondProgram

/-- EXEC: the instruction's checks and writes (R106). A zero cell sends LOOP_START to SCAN, and the I/O
instructions to their wait states; every other instruction completes here. -/
def fsmExec (i : Instr) (s : State) : Result :=
  if i = .loopStart then
    accessCell s fun v =>
      .next (if cellIsZero v then { s with fsm := .scan (s.ip + 1) 1 } else enterLoop s)
  else if i = .write then accessCell s fun v => .next (s.holdOut v)
  else if i = .read then accessCell s fun _ => .next s.holdIn
  else exec i s

/-- SCAN: one position of the skip scan (R106, R151). -/
def fsmScan (j d : Nat) (s : State) : State :=
  if s.progLen ≤ j then s.raise .unterminatedLoop s.ip
  else if opAt s.hw.opmap s.prog j = some .loopStart then { s with fsm := .scan (j + 1) (d + 1) }
  else if opAt s.hw.opmap s.prog j = some .loopEnd then
    if d - 1 = 0 then s.retire (j + 1) else { s with fsm := .scan (j + 1) (d - 1) }
  else { s with fsm := .scan (j + 1) d }

/-- One internal step of the FSM (R106). WAIT_IN writes the cell when its answer comes, so it is READ run again, with
READ's bounds condition (R52, log 29); WAIT_OUT and SCAN access no cell. -/
def microStep (s : State) : Result :=
  match s.status.run with
  | .running =>
    match s.fsm with
    | .fetch => fsmFetch s
    | .exec i => fsmExec i s
    | .scan j d => .next (fsmScan j d s)
    | .waitIn => execRead s
    | .waitOut v => .next (emit v s)
  | .idle => .next s
  | .done => .next s
  | .error => .next s

end Sys2Proof.Machine
end

