-- ==== Sys2Proof/Safety.lean ====
section
/-! DEFINITION. What counts as a sound state of the block, and the words claims are stated in: the invariant of the
runs (20_memory.md R54, R57, R62; 10_state.md R31; 40_dispatch.md R104), the states the host's and the engine's events
reach, the nesting count behind the skip scan (44_loop.md R151), and counts over a program and over a run. -/

namespace Sys2Proof.Machine

open Sys2Proof

/-! ### The invariant -/

/-- What holds at every instruction boundary and every hold of a run (RUN = RUNNING). -/
structure RunInv (s : State) : Prop where
  /-- R25: CFG_STEP is at least 1. -/
  stepPos : 1 ≤ s.cfgStep
  /-- R29: the program fits the store. -/
  progFits : s.prog.length ≤ s.hw.progMax
  /-- R104: `ip <= L`. -/
  ipLe : s.ip ≤ s.progLen
  /-- R23: `p` is a PTR_WIDTH-bit value. -/
  ptrRange : s.p < 2 ^ s.hw.ptrWidth
  /-- R57: permissive `p < len`. -/
  permissiveInside : s.cfgStrict = false → s.p < s.len
  /-- R54: `len` is a positive multiple of STEP. -/
  lenSteps : s.cfgStep ∣ s.len
  /-- R54: `STEP <= len`. -/
  lenLow : s.cfgStep ≤ s.len
  /-- R54: `len <= TAPE_MAX`, for a host that keeps `STEP <= TAPE_MAX` (log 15). -/
  lenHigh : s.len ≤ max s.cfgStep s.hw.tapeMax
  /-- R62: the elements rise strictly to the top, and each is below `ip`. -/
  loopsBelow : (s.ip :: s.loops).Pairwise (fun a b => b < a)
  /-- R62: each element is the position of a LOOP_START. -/
  loopsStarts : ∀ v ∈ s.loops, opAt s.hw.opmap s.prog v = some .loopStart
  /-- R30: the live elements lie inside the capacity. -/
  depthLe : s.depth ≤ s.cap
  /-- R59, R60: the capacity is a positive multiple of STEP. -/
  capSteps : s.cfgStep ∣ s.cap
  capLow : s.cfgStep ≤ s.cap
  /-- R60: growth keeps the capacity at LSTACK_MAX or below (log 15). -/
  capHigh : s.cap ≤ max s.cfgStep s.hw.lstackMax
  /-- R33: only READ is held on an input request, with its bounds check passed. -/
  heldRead : s.fsm = .waitIn → fetchInstr s = some .read ∧ s.inBounds
  /-- R34: only WRITE is held on an output byte, and the byte on offer is the current cell. -/
  heldWrite : ∀ v, s.fsm = .waitOut v → fetchInstr s = some .write ∧ s.inBounds ∧ v = s.cell s.p

/-- What holds in every state the block can be in between two steps. -/
structure BlockInv (s : State) : Prop where
  /-- R6, R84, R213: the parameters meet their constraints. -/
  hwOk : s.hw.wf
  /-- The tape's cells keep their canonical form. -/
  tapeOk : Memory.wf s.tape
  /-- R28: cells at `len` or above do not exist. -/
  tapeInside : ∀ c ∈ s.tape, c.1 < s.len
  /-- R31: POLICY is a copy of CFG_STRICT. -/
  policyCopy : s.status.policy = s.cfgStrict
  /-- R31: ERR is non-zero exactly when RUN is ERROR. -/
  errIff : s.status.err ≠ none ↔ s.status.run = .error
  /-- R31, R36: WAIT_IN is 1 exactly while held on an input request. -/
  waitInIff : s.status.waitIn = true ↔ s.fsm = .waitIn
  /-- R31, R36: WAIT_OUT is 1 exactly while held on an output byte. -/
  waitOutIff : s.status.waitOut = true ↔ ∃ v, s.fsm = .waitOut v
  /-- R31: the wait bits are 1 only while RUNNING; outside a run the FSM rests. -/
  restOutside : s.status.run ≠ .running → s.fsm = .fetch
  /-- R106: between steps the FSM is at FETCH or held. -/
  boundary : s.fsm = .fetch ∨ s.fsm = .waitIn ∨ ∃ v, s.fsm = .waitOut v
  /-- A run in progress. -/
  running : s.status.run = .running → RunInv s

/-- The power-on state of the machine with the parameters `hw` (R211). -/
def State.powerOn (hw : Params) : State := { State.reset with hw := hw }

/-- The states a machine with the parameters `hw` reaches from power-on by some interleaving of engine steps and
host actions. -/
def Reachable (hw : Params) (s : State) : Prop :=
  ∃ events, onEvents events (State.powerOn hw) = .next s

/-! ### The skip scan by counting -/

/-- What a position adds to the number of open loops (R151): only LOOP_START and LOOP_END count. -/
def nestDelta (m : OpMap) (bytes : List Byte) (k : Nat) : Int :=
  if opAt m bytes k = some .loopStart then 1
  else if opAt m bytes k = some .loopEnd then -1
  else 0

/-- The loops open after position `j`, counting the LOOP_START at `start` as the first one. -/
def openLoops (m : OpMap) (bytes : List Byte) (start j : Nat) : Int :=
  1 + ((List.range' (start + 1) (j - start)).map (nestDelta m bytes)).sum

/-- `e` is the LOOP_END that matches the LOOP_START at `start` (R151): the first position after `start` at which no
loop is open. -/
def MatchesLoop (m : OpMap) (bytes : List Byte) (start e : Nat) : Prop :=
  start < e ∧ opAt m bytes e = some .loopEnd ∧ openLoops m bytes start e = 0 ∧
    ∀ j, start ≤ j → j < e → 0 < openLoops m bytes start j

/-- `nLS` (R62): the number of positions `k < L` that hold a LOOP_START. -/
def loopStartCount (m : OpMap) (bytes : List Byte) : Nat :=
  (List.range (2 * bytes.length)).countP fun k => decide (opAt m bytes k = some .loopStart)

/-! ### Words for claims about runs -/

/-- The number of the next `k` steps that start with `ip` at `pos`. -/
def visits (pos : Nat) : Nat → State → Nat
  | 0, _ => 0
  | k + 1, s =>
    (if s.ip = pos then 1 else 0) +
      match step s with
      | .next t => visits pos k t
      | .fault _ => 0
      | .refused _ => 0

/-- `t` is reached from `s` in `k` steps, and every state on the way, `t` too, has `lo <= ip <= hi`. -/
def RunsWithin (lo hi k : Nat) (s t : State) : Prop :=
  runFor k s = .next t ∧ ∀ i ≤ k, ∀ u, runFor i s = .next u → lo ≤ u.ip ∧ u.ip ≤ hi

/-- One pass of a loop body between LOOP_START at `a` and LOOP_END at `e` (R153): from the body's first position to
`e` through positions inside the body only, with no error, the cell at `p` down by one, and `p` and the loop stack
in net effect unchanged. -/
def BodyPass (a e : Nat) (b : State) : Prop :=
  ∃ k x, runFor k b = .next x ∧ x.status.run = .running ∧ x.ip = e ∧ x.p = b.p ∧ x.loops = b.loops ∧
    x.cell x.p = b.cell b.p - 1 ∧
    ∀ i < k, ∀ u, runFor i b = .next u → a < u.ip ∧ u.ip < e

/-- A function applied to the next state of an answer. -/
def mapNext (f : State → State) : Result → Result
  | .next t => .next (f t)
  | .fault r => .fault r
  | .refused r => .refused r

end Sys2Proof.Machine
end

