-- ==== Sys2Proof/Certificates/Slice0/Obligations.lean ====
section
/-! DEFINITION. The statements for the provers, in the order of the spec's rules: encoding, reset and run start, the
step, each instruction's result, the frames, the errors, the laws of the machine as a whole, and its invariants. -/

open Sys2Proof Sys2Proof.Machine

/-! ### Encoding (30_encoding.md) -/

/-- The default OPMAP's table, which is the spec's own choice D1 (log 4): the rows' nibbles written out. -/
def Obligations.DefaultMapDecodesTableWords : Prop :=
  decodeTableWord 8 0b0000 = some .incrPtr ∧ decodeTableWord 8 0b0001 = some .decrPtr ∧
  decodeTableWord 8 0b0010 = some .incrVal ∧ decodeTableWord 8 0b0011 = some .decrVal ∧
  decodeTableWord 8 0b0100 = some .write ∧ decodeTableWord 8 0b0101 = some .read ∧
  decodeTableWord 8 0b0110 = some .loopStart ∧ decodeTableWord 8 0b0111 = some .loopEnd ∧
  decodeTableWord 8 0b1000 = some .inert8 ∧ decodeTableWord 8 0b1111 = some .inertF

/-- Decode and encode agree in both directions under every OPMAP that R84 admits; the labels of the inert values
are the model's (log 4). -/
def Obligations.DecodeAndEncodeAgree : Prop :=
  ∀ m : OpMap, m.wf →
    (∀ i : Instr, i.wf m ∧ decodeNibble m (encode m i) = i) ∧ ∀ n : Nibble, encode m (decodeNibble m n) = n

/-- R81: the high nibble of byte `i` at position `2i`, the low nibble at `2i+1`, `L = 2N`, and no byte and no length
makes the decoder fail. -/
def Obligations.ProgramByteHoldsTwoInstructions : Prop :=
  ∀ (m : OpMap) (bytes : List Byte),
    (∀ i b, bytes[i]? = some b →
      (∃ hi, progNibble bytes (2 * i) = some hi ∧ hi.toNat = b.toNat / 16) ∧
      (∃ lo, progNibble bytes (2 * i + 1) = some lo ∧ lo.toNat = b.toNat % 16)) ∧
    (decodeProgram m bytes).length = 2 * bytes.length ∧
    (∀ k, opAt m bytes k = (decodeProgram m bytes)[k]?) ∧
    ∀ k, k < 2 * bytes.length → ∃ i, opAt m bytes k = some i

/-- Packing is the inverse of decoding (30_encoding.md section 1): `pack(a, b) = (a << 4) | b`, and re-encoding the
expanded program gives the bytes back. -/
def Obligations.PackingInvertsDecoding : Prop :=
  (∀ a b : Nibble, (packNibbles a b).toNat = 16 * a.toNat + b.toNat) ∧
  (∀ a b : Nibble, highNibble (packNibbles a b) = a ∧ lowNibble (packNibbles a b) = b) ∧
  ∀ (fill : Nibble) (bytes : List Byte), packProgram fill (expandProgram bytes) = bytes

/-- An assembled instruction list decodes to itself, with one inert instruction after a list of odd length; the
padding is the spec's decision D17, and which inert value it is under another OPMAP is the model's choice (log 30). -/
def Obligations.AssembledProgramDecodesToSource : Prop :=
  ∀ (m : OpMap), m.wf → ∀ instrs : List Instr,
    decodeProgram m (assemble m instrs) = instrs ++ if instrs.length % 2 = 1 then [.inertF] else []

/-- Every instruction's assembly line stands for it, and so does each short form (30_encoding.md section 5,
decision D15; log 25). -/
def Obligations.AssemblyLineNamesItsInstruction : Prop :=
  ∀ (m : OpMap), m.wf →
    (∀ i : Instr, parseLine m (asmLine m i) = some i) ∧
    parseLine m ['['] = some .loopStart ∧ parseLine m [']'] = some .loopEnd ∧
    parseLine m ['>'] = some .incrPtr ∧ parseLine m ['<'] = some .decrPtr ∧
    parseLine m ['+'] = some .incrVal ∧ parseLine m ['-'] = some .decrVal ∧
    parseLine m ['.'] = some .write ∧ parseLine m [','] = some .read

/-! ### Reset and run start (70_reset_and_hazards.md) -/

/-- What power-on leaves in STATUS, ERR_IP and CFG_STRICT (section 1, decisions D10 and D18). The other elements are
unspecified there, and nothing is said of them. -/
def Obligations.PowerOnStatusIsZero : Prop :=
  State.reset.status.word = 0x00 ∧ State.reset.errIp = 0 ∧ State.reset.cfgStrict = false ∧
    State.reset.status.run = .idle

/-- The invariant holds at power-on, of the machine `State.reset` and of every machine whose parameters meet
their constraints (log 2, log 5). -/
def Obligations.PowerOnMeetsInvariant : Prop :=
  BlockInv State.reset ∧ ∀ hw : Params, hw.wf → BlockInv (State.powerOn hw)

/-- START outside a run with its checks passed sets every element to its run-start value (section 1, decisions D7,
D16, D20). The records `output` and `inTaken`, the return of the STRICT input to 0, and that the queued answers and the
host's readiness stay as they are, are the model's (logs 14, 17, 27). -/
def Obligations.StartInitialisesRun : Prop :=
  ∀ s : State, s.status.run ≠ .running → 1 ≤ s.stepIn → s.prog.length ≤ s.hw.progMax →
    ∃ t, hostAct .start s = .next t ∧
      t = { s with
        ip := 0, p := 0, len := s.stepIn, tape := t.tape, cap := s.stepIn, loops := [], errIp := 0,
        cfgStep := s.stepIn, cfgStrict := s.strictIn, fsm := .fetch,
        status := { run := .running, waitIn := false, waitOut := false, err := none, policy := s.strictIn },
        strictIn := false, output := [], inTaken := [] } ∧
      ∀ a, t.cell a = 0

/-- START's checks in their order (60_exceptions.md section 3): a zero STEP, then a program too large. The tape, the
pointer and the stack keep what they held. -/
def Obligations.StartChecksStepThenSize : Prop :=
  ∀ s : State, s.status.run ≠ .running → (s.stepIn = 0 ∨ s.hw.progMax < s.prog.length) →
    ∃ t, hostAct .start s = .next t ∧ t.status.run = .error ∧ t.errIp = 0 ∧
      t.status.err = some (if s.stepIn = 0 then .invalidMemoryStepSize else .programTooLarge) ∧
      t.cfgStep = s.stepIn ∧ t.cfgStrict = s.strictIn ∧ t.status.policy = s.strictIn ∧
      t.status.waitIn = false ∧ t.status.waitOut = false ∧
      t.ip = s.ip ∧ t.p = s.p ∧ t.len = s.len ∧ t.tape = s.tape ∧ t.loops = s.loops ∧ t.cap = s.cap ∧
      t.prog = s.prog

/-- R214: a load or START while RUNNING is ignored, and nothing that happens during a run changes the configuration
or the program store. -/
def Obligations.ConfigurationIsFixedDuringRun : Prop :=
  ∀ s : State, s.status.run = .running →
    (∀ bytes, hostAct (.load bytes) s = .next s) ∧ hostAct .start s = .next s ∧
    ∀ e t, onEvent e s = .next t →
      t.cfgStep = s.cfgStep ∧ t.cfgStrict = s.cfgStrict ∧ t.prog = s.prog ∧ t.hw = s.hw

/-- No state carries over (70_reset_and_hazards.md section 1): two blocks that agree on the program store, the
inputs and the channels start into the same state, whatever run each one had before. The channels are the host's, and
what it left on them is compared, not emptied: that unconsumed answers outlive a run is the model's choice (log 27). -/
def Obligations.NoStateCarriesIntoNextRun : Prop :=
  ∀ s t : State, s.status.run ≠ .running → t.status.run ≠ .running →
    t.hw = s.hw → t.prog = s.prog → t.stepIn = s.stepIn → t.strictIn = s.strictIn →
    t.inAnswers = s.inAnswers → t.outReady = s.outReady →
    1 ≤ s.stepIn → s.prog.length ≤ s.hw.progMax →
    hostAct .start s = hostAct .start t

/-! ### The step (40_dispatch.md) -/

/-- R101: while RUNNING the step ends the run at `ip == L`, and else runs the instruction that OPMAP gives the nibble
at `ip`. -/
def Obligations.StepRunsDecodedInstruction : Prop :=
  ∀ s : State, s.status.run = .running →
    (s.ip = 2 * s.prog.length →
      step s = .next { s with status := { s.status with run := .done }, fsm := .fetch }) ∧
    ∀ n, progNibble s.prog s.ip = some n → step s = exec (decodeNibble s.hw.opmap n) s

/-- RUN moves only along the transitions of 40_dispatch.md section 1 (decisions D10, D19), and the engine's step ends
a run in DONE exactly at `ip == L`. -/
def Obligations.RunMovesOnlyAlongItsTransitions : Prop :=
  ∀ (e : Event) (s t : State), onEvent e s = .next t →
    (t.status.run = s.status.run ∨
      (e = .host .start ∧ s.status.run ≠ .running ∧ (t.status.run = .running ∨ t.status.run = .error)) ∨
      (e = .engine ∧ s.status.run = .running ∧ (t.status.run = .done ∨ t.status.run = .error))) ∧
    (e = .engine → s.status.run = .running → (t.status.run = .done ↔ s.ip = 2 * s.prog.length))

/-- The placing of a table word runs its instruction in the very next step, from every state and under every OPMAP
that R84 admits; how a program is placed is the model's choice (log 19). -/
def Obligations.PlacedWordRunsNext : Prop :=
  ∀ (s : State) (w : Nat) (i : Instr), s.hw.opmap.wf → decodeTableWord 8 w = some i →
    step (s.withFetchWord 8 w) = exec i (s.withFetchWord 8 w)

/-! ### The instructions (41_pointer.md to 45_inert.md) -/

/-- R120: INCR_PTR under either policy. The tape grows exactly where the incremented pointer equals `len`, old cells
keep their values and new cells are 0; past TAPE_MAX it raises CapacityExceeded and nothing else changes. -/
def Obligations.IncrPtrMovesAndGrowsTape : Prop :=
  ∀ s : State,
    ((s.p + 1) % 2 ^ s.hw.ptrWidth ≠ s.len →
      exec .incrPtr s = .next { s with p := (s.p + 1) % 2 ^ s.hw.ptrWidth, ip := s.ip + 1, fsm := .fetch }) ∧
    ((s.p + 1) % 2 ^ s.hw.ptrWidth = s.len → s.len + s.cfgStep ≤ s.hw.tapeMax →
      ∃ t, exec .incrPtr s = .next t ∧
        t = { s with p := s.len, ip := s.ip + 1, fsm := .fetch, len := s.len + s.cfgStep, tape := t.tape } ∧
        ∀ a, t.cell a = if s.len ≤ a ∧ a < s.len + s.cfgStep then 0 else s.cell a) ∧
    ((s.p + 1) % 2 ^ s.hw.ptrWidth = s.len → s.hw.tapeMax < s.len + s.cfgStep →
      exec .incrPtr s = .next (s.raise .capacityExceeded s.ip))

/-- DECR_PTR (41_pointer.md): one down; at 0 strict wraps to `2^PTR_WIDTH - 1`, which is the spec's decision D4, and
permissive stays. `p` is a PTR_WIDTH-bit value in every run (`RunInv.ptrRange`). -/
def Obligations.DecrPtrMovesByPolicy : Prop :=
  ∀ s : State, s.p < 2 ^ s.hw.ptrWidth →
    exec .decrPtr s = .next { s with
      p := if s.p = 0 then (if s.cfgStrict then 2 ^ s.hw.ptrWidth - 1 else 0) else s.p - 1,
      ip := s.ip + 1, fsm := .fetch }

/-- R130: INCR_VAL adds one modulo 256 to the current cell and changes no other cell; strict outside the tape it
raises DataIndexOutOfBounds and writes nothing. -/
def Obligations.IncrValAddsOneModulo256 : Prop :=
  ∀ s : State, Memory.wf s.tape →
    (s.p < s.len →
      ∃ t, exec .incrVal s = .next t ∧
        t = { s with ip := s.ip + 1, fsm := .fetch, tape := t.tape } ∧
        (t.cell s.p).toNat = ((s.cell s.p).toNat + 1) % 256 ∧ ∀ a, a ≠ s.p → t.cell a = s.cell a) ∧
    (s.len ≤ s.p → s.cfgStrict = true → exec .incrVal s = .next (s.raise .dataIndexOutOfBounds s.ip))

/-- R131: DECR_VAL subtracts one modulo 256 from the current cell and changes no other cell; strict outside the tape
it raises DataIndexOutOfBounds and writes nothing. -/
def Obligations.DecrValSubtractsOneModulo256 : Prop :=
  ∀ s : State, Memory.wf s.tape →
    (s.p < s.len →
      ∃ t, exec .decrVal s = .next t ∧
        t = { s with ip := s.ip + 1, fsm := .fetch, tape := t.tape } ∧
        (t.cell s.p).toNat = ((s.cell s.p).toNat + 255) % 256 ∧ ∀ a, a ≠ s.p → t.cell a = s.cell a) ∧
    (s.len ≤ s.p → s.cfgStrict = true → exec .decrVal s = .next (s.raise .dataIndexOutOfBounds s.ip))

/-- R140: WRITE delivers the current cell once where the host accepts, and holds with the byte on offer where it does
not; strict outside the tape it raises DataIndexOutOfBounds and offers nothing. While held the byte on offer is the
current cell (`RunInv.heldWrite`). -/
def Obligations.WriteEmitsCurrentCell : Prop :=
  ∀ s : State, (∀ v, s.fsm = .waitOut v → v = s.cell s.p) →
    (s.p < s.len → s.outReady = true →
      exec .write s = .next { s with
        output := s.output ++ [s.cell s.p], ip := s.ip + 1, fsm := .fetch,
        status := { s.status with waitOut := false } }) ∧
    (s.p < s.len → s.outReady = false →
      exec .write s = .next { s with
        fsm := .waitOut (s.cell s.p), status := { s.status with waitOut := true } }) ∧
    (s.len ≤ s.p → s.cfgStrict = true → exec .write s = .next (s.raise .dataIndexOutOfBounds s.ip))

/-- R141: READ consumes one answer and stores the byte, or at end of input stores 0 or nothing by EOF_POLICY; with no
answer it holds; strict outside the tape it raises DataIndexOutOfBounds and consumes nothing. -/
def Obligations.ReadFillsCurrentCell : Prop :=
  ∀ s : State, Memory.wf s.tape →
    (s.p < s.len → ∀ a rest, s.inAnswers = a :: rest →
      ∃ t, exec .read s = .next t ∧
        t = { s with
          ip := s.ip + 1, fsm := .fetch, inAnswers := rest, inTaken := s.inTaken ++ [a],
          status := { s.status with waitIn := false }, tape := t.tape } ∧
        (∀ v, a = .byte v → t.cell s.p = v) ∧
        (a = .eof → s.hw.eofPolicy = .eofZero → t.cell s.p = 0) ∧
        (a = .eof → s.hw.eofPolicy = .eofUnchanged → t.cell s.p = s.cell s.p) ∧
        ∀ b, b ≠ s.p → t.cell b = s.cell b) ∧
    (s.p < s.len → s.inAnswers = [] →
      exec .read s = .next { s with fsm := .waitIn, status := { s.status with waitIn := true } }) ∧
    (s.len ≤ s.p → s.cfgStrict = true → exec .read s = .next (s.raise .dataIndexOutOfBounds s.ip))

/-- LOOP_START (44_loop.md). A zero cell skips to one past the match or raises UnterminatedLoop; a non-zero cell
pushes `ip`, with the capacity grown where the stack was full, or raises CapacityExceeded. The strict bounds check is
the spec's decision D8 and the capacity its decision D6. -/
def Obligations.LoopStartSkipsOrEnters : Prop :=
  ∀ s : State,
    (s.p < s.len → s.cell s.p = 0 → ∀ m, skipScan s s.ip = some m →
      exec .loopStart s = .next { s with ip := m + 1, fsm := .fetch }) ∧
    (s.p < s.len → s.cell s.p = 0 → skipScan s s.ip = none →
      exec .loopStart s = .next (s.raise .unterminatedLoop s.ip)) ∧
    (s.p < s.len → s.cell s.p ≠ 0 → s.depth ≠ s.cap →
      exec .loopStart s = .next { s with loops := s.ip :: s.loops, ip := s.ip + 1, fsm := .fetch }) ∧
    (s.p < s.len → s.cell s.p ≠ 0 → s.depth = s.cap → s.cap + s.cfgStep ≤ s.hw.lstackMax →
      exec .loopStart s = .next { s with
        loops := s.ip :: s.loops, cap := s.cap + s.cfgStep, ip := s.ip + 1, fsm := .fetch }) ∧
    (s.p < s.len → s.cell s.p ≠ 0 → s.depth = s.cap → s.hw.lstackMax < s.cap + s.cfgStep →
      exec .loopStart s = .next (s.raise .capacityExceeded s.ip)) ∧
    (s.len ≤ s.p → s.cfgStrict = true → exec .loopStart s = .next (s.raise .dataIndexOutOfBounds s.ip))

/-- R152: LOOP_END pops and jumps to the popped position with no advance, whatever the tape holds; on an empty stack
strict raises UnexpectedLoopEnd and permissive only advances. -/
def Obligations.LoopEndPopsAndJumps : Prop :=
  ∀ s : State,
    (∀ v rest, s.loops = v :: rest → exec .loopEnd s = .next { s with loops := rest, ip := v, fsm := .fetch }) ∧
    (s.loops = [] → s.cfgStrict = true → exec .loopEnd s = .next (s.raise .unexpectedLoopEnd s.ip)) ∧
    (s.loops = [] → s.cfgStrict = false → exec .loopEnd s = .next { s with ip := s.ip + 1, fsm := .fetch })

/-- R170: each of the eight inert instructions INERT_8, INERT_9, INERT_A, INERT_B, INERT_C, INERT_D, INERT_E and
INERT_F only advances `ip`, in every state and under either policy. -/
def Obligations.InertOnlyAdvances : Prop :=
  ∀ i ∈ [Instr.inert8, .inert9, .inertA, .inertB, .inertC, .inertD, .inertE, .inertF], ∀ s : State,
    exec i s = .next { s with ip := s.ip + 1, fsm := .fetch }

/-- A permissive cell access outside the tape, which no run reaches, is a fault of the model and gives no value
(20_memory.md section 2, decision D21); that READ faults before its request is the model's choice (log 29). -/
def Obligations.PermissiveAccessOutsideTapeFaults : Prop :=
  ∀ (i : Instr) (s : State), i ∈ [Instr.incrVal, .decrVal, .write, .read, .loopStart] →
    s.len ≤ s.p → s.cfgStrict = false → exec i s = .fault .tapeAccessBeyondLen

/-! ### Frames -/

/-- No instruction writes the parameters, CFG_STEP, CFG_STRICT, the program store, the inputs or POLICY, and only
INCR_PTR and DECR_PTR write `p` (10_state.md sections 1 and 2, 20_memory.md section 4). -/
def Obligations.RegistersAnInstructionKeeps : Prop :=
  ∀ (i : Instr) (s t : State), exec i s = .next t →
    t.hw = s.hw ∧ t.cfgStep = s.cfgStep ∧ t.cfgStrict = s.cfgStrict ∧ t.prog = s.prog ∧
    t.stepIn = s.stepIn ∧ t.strictIn = s.strictIn ∧ t.outReady = s.outReady ∧
    t.status.policy = s.status.policy ∧
    (i ≠ .incrPtr → i ≠ .decrPtr → t.p = s.p)

/-- R55: `len` changes only through growth, where INCR_PTR moves `p` to `len`. -/
def Obligations.TapeLengthChangesOnlyByGrowth : Prop :=
  ∀ s t : State, step s = .next t → t.len ≠ s.len →
    s.status.run = .running ∧ fetchInstr s = some .incrPtr ∧ t.p = s.len ∧ t.len = s.len + s.cfgStep

/-- Which bytes of the tape an instruction can change (20_memory.md section 2): INCR_VAL, DECR_VAL and READ the
current cell, INCR_PTR only cells it creates, every other instruction none. -/
def Obligations.TapeBytesAnInstructionKeeps : Prop :=
  ∀ (i : Instr) (s t : State), Memory.wf s.tape → exec i s = .next t → ∀ a : Nat,
    (i ∈ [Instr.incrVal, .decrVal, .read] → a ≠ s.p → t.cell a = s.cell a) ∧
    (i = .incrPtr → (a < s.len ∨ t.len ≤ a) → t.cell a = s.cell a) ∧
    (i ∉ [Instr.incrVal, .decrVal, .read, .incrPtr] → t.cell a = s.cell a)

/-- Only LOOP_START and LOOP_END touch the loop stack, and only LOOP_START its capacity (20_memory.md section 3). -/
def Obligations.LoopStackFrame : Prop :=
  ∀ (i : Instr) (s t : State), exec i s = .next t →
    (i ≠ .loopStart → t.cap = s.cap) ∧
    (i = .loopStart → (t.loops = s.loops ∧ t.cap = s.cap) ∨
      (t.loops = s.ip :: s.loops ∧ (t.cap = s.cap ∨ t.cap = s.cap + s.cfgStep))) ∧
    (i = .loopEnd → t.loops = s.loops.tail) ∧
    (i ≠ .loopStart → i ≠ .loopEnd → t.loops = s.loops)

/-- Only WRITE delivers output, one byte at most; only READ consumes an answer, one at most and in order; and only
they move the wait bits, except that an error clears both (20_memory.md section 6, 10_state.md section 5). -/
def Obligations.ChannelFrame : Prop :=
  ∀ (i : Instr) (s t : State), exec i s = .next t →
    (i ≠ .write → t.output = s.output) ∧
    (i = .write → t.output = s.output ∨ ∃ v, t.output = s.output ++ [v]) ∧
    (i ≠ .read → t.inAnswers = s.inAnswers ∧ t.inTaken = s.inTaken) ∧
    (i = .read → (t.inAnswers = s.inAnswers ∧ t.inTaken = s.inTaken) ∨
      ∃ a, s.inAnswers = a :: t.inAnswers ∧ t.inTaken = s.inTaken ++ [a]) ∧
    (i ≠ .read → t.status.waitIn = s.status.waitIn ∨ (t.status.run = .error ∧ t.status.waitIn = false)) ∧
    (i ≠ .write → t.status.waitOut = s.status.waitOut ∨ (t.status.run = .error ∧ t.status.waitOut = false))

/-! ### Errors (60_exceptions.md) -/

/-- What an error records and keeps (60_exceptions.md section 2, decision D14): RUN, ERR, the wait bits and ERR_IP
are written, and the faulting instruction makes none of its writes, emits nothing and consumes nothing. The hidden
FSM's rest in FETCH is the model's choice (log 20). -/
def Obligations.ErrorRecordsAndChangesNothingElse : Prop :=
  ∀ (i : Instr) (s t : State), exec i s = .next t → s.status.run ≠ .error → t.status.run = .error →
    ∃ k, t = { s with
      status := { s.status with run := .error, err := some k, waitIn := false, waitOut := false },
      errIp := s.ip, fsm := .fetch }

/-- R182: UnexpectedLoopEnd is raised exactly by LOOP_END with an empty stack in strict mode; in permissive mode the
same case is a no-op. -/
def Obligations.UnexpectedLoopEndExactlyWhen : Prop :=
  ∀ (i : Instr) (s : State),
    (∀ t, exec i s = .next t → s.status.err = none →
      (t.status.err = some .unexpectedLoopEnd ↔ i = .loopEnd ∧ s.cfgStrict = true ∧ s.loops = [])) ∧
    (s.cfgStrict = false → s.loops = [] → exec .loopEnd s = .next { s with ip := s.ip + 1, fsm := .fetch })

/-- R183: UnterminatedLoop is raised exactly by LOOP_START on a zero cell with no matching LOOP_END, under both
policies; a loop that is entered raises it never. -/
def Obligations.UnterminatedLoopExactlyWhen : Prop :=
  ∀ (i : Instr) (s t : State), exec i s = .next t → s.status.err = none →
    (t.status.err = some .unterminatedLoop ↔
      i = .loopStart ∧ s.p < s.len ∧ s.cell s.p = 0 ∧ ¬ ∃ m, MatchesLoop s.hw.opmap s.prog s.ip m)

/-- DataIndexOutOfBounds is raised exactly by a cell access outside the tape in strict mode (60_exceptions.md
section 1); that LOOP_START is among them is the spec's decision D8. -/
def Obligations.DataIndexOutOfBoundsExactlyWhen : Prop :=
  ∀ (i : Instr) (s t : State), exec i s = .next t → s.status.err = none →
    (t.status.err = some .dataIndexOutOfBounds ↔
      i ∈ [Instr.incrVal, .decrVal, .write, .read, .loopStart] ∧ s.cfgStrict = true ∧ s.len ≤ s.p)

/-- CapacityExceeded is raised exactly where the tape or the loop stack must grow past its limit (60_exceptions.md
section 1, decisions D5 and D6); the two start checks' errors are raised by no instruction. -/
def Obligations.CapacityExceededExactlyWhen : Prop :=
  ∀ (i : Instr) (s t : State), exec i s = .next t → s.status.err = none →
    (t.status.err = some .capacityExceeded ↔
      (i = .incrPtr ∧ (s.p + 1) % 2 ^ s.hw.ptrWidth = s.len ∧ s.hw.tapeMax < s.len + s.cfgStep) ∨
      (i = .loopStart ∧ s.p < s.len ∧ s.cell s.p ≠ 0 ∧ s.depth = s.cap ∧ s.hw.lstackMax < s.cap + s.cfgStep)) ∧
    t.status.err ≠ some .invalidMemoryStepSize ∧ t.status.err ≠ some .programTooLarge

/-- An ended run stays ended (60_exceptions.md section 4, 40_dispatch.md section 1): without START no sequence of
events leaves DONE or ERROR or changes what the end recorded; that the engine state stays frozen is decision D14. -/
def Obligations.EndedRunStaysFrozen : Prop :=
  ∀ (events : List Event) (s t : State), Event.host .start ∉ events →
    (s.status.run = .done ∨ s.status.run = .error) → onEvents events s = .next t →
    t.status = s.status ∧ t.errIp = s.errIp ∧ t.ip = s.ip ∧ t.p = s.p ∧ t.len = s.len ∧ t.tape = s.tape ∧
      t.loops = s.loops ∧ t.cap = s.cap ∧ t.output = s.output ∧ t.inTaken = s.inTaken

/-! ### Rules of the whole machine -/

/-- R102: the three ways `ip` advances, and that an error leaves it. -/
def Obligations.IpAdvancesInThreeWays : Prop :=
  ∀ (i : Instr) (s t : State), s.status.run = .running → exec i s = .next t →
    (t.status.run = .error → t.ip = s.ip) ∧
    (t.status.run = .running → t.fsm = .fetch →
      (i ≠ .loopStart → i ≠ .loopEnd → t.ip = s.ip + 1) ∧
      (i = .loopStart → s.cell s.p ≠ 0 → t.ip = s.ip + 1) ∧
      (i = .loopStart → s.cell s.p = 0 → ∃ m, MatchesLoop s.hw.opmap s.prog s.ip m ∧ t.ip = m + 1) ∧
      (i = .loopEnd → ∀ v rest, s.loops = v :: rest → t.ip = v) ∧
      (i = .loopEnd → s.loops = [] → s.cfgStrict = false ∧ t.ip = s.ip + 1))

/-- R26: the two policies agree on every instruction but in exactly these cases: DECR_PTR at 0, a cell access
outside the tape, LOOP_END on an empty stack. In each of them they differ. -/
def Obligations.PolicyDifferencesAreExactlyThese : Prop :=
  ∀ (i : Instr) (s : State), 0 < s.hw.ptrWidth → s.p < 2 ^ s.hw.ptrWidth →
    (exec i { s with cfgStrict := true } =
        mapNext (fun t => { t with cfgStrict := true }) (exec i { s with cfgStrict := false }) ↔
      ¬ (i = .decrPtr ∧ s.p = 0) ∧
      ¬ (i ∈ [Instr.incrVal, .decrVal, .write, .read, .loopStart] ∧ s.len ≤ s.p) ∧
      ¬ (i = .loopEnd ∧ s.loops = []))

/-- R151: the skip scan finds the first later position at which no loop is open, counting LOOP_START and LOOP_END
only, and reaches the end of the program exactly where there is none. -/
def Obligations.SkipScanFindsMatchingLoopEnd : Prop :=
  ∀ (s : State) (start : Nat),
    (∀ m, skipScan s start = some m ↔ MatchesLoop s.hw.opmap s.prog start m) ∧
    (skipScan s start = none ↔ ¬ ∃ m, MatchesLoop s.hw.opmap s.prog start m)

/-- The skip law (44_loop.md): LOOP_START on a zero cell goes to one past its match in one step, and nothing between
them executes or is changed; without a match the run ends in ERROR with UnterminatedLoop. -/
def Obligations.ZeroCellSkipsWholeLoop : Prop :=
  ∀ s : State, s.status.run = .running → fetchInstr s = some .loopStart → s.p < s.len → s.cell s.p = 0 →
    (∀ m, MatchesLoop s.hw.opmap s.prog s.ip m → step s = .next { s with ip := m + 1, fsm := .fetch }) ∧
    ((¬ ∃ m, MatchesLoop s.hw.opmap s.prog s.ip m) →
      ∃ t, step s = .next t ∧ t.status.run = .error ∧ t.status.err = some .unterminatedLoop ∧ t.errIp = s.ip)

/-- The loop law (44_loop.md): a loop whose body in each pass lowers the cell by one, and in net effect keeps `p` and
the loop stack, runs its body exactly `T[p]` times and goes on behind its LOOP_END with the cell at 0. The passes
are those that start inside the loop from this entry; `visits e` counts the LOOP_ENDs executed, one for each pass. -/
def Obligations.LoopRunsBodyExactlyCellTimes : Prop :=
  ∀ (e : Nat) (s : State), BlockInv s → s.status.run = .running → fetchInstr s = some .loopStart → s.p < s.len →
    skipScan s s.ip = some e → (s.cell s.p ≠ 0 → (pushLoop s.ip s).isSome) →
    (∀ j b, RunsWithin s.ip e j s b → b.status.run = .running → b.ip = s.ip + 1 → b.p = s.p →
      b.loops = s.ip :: s.loops → b.cell b.p ≠ 0 → BodyPass s.ip e b) →
    ∃ k t, runFor k s = .next t ∧ t.status.run = .running ∧ t.ip = e + 1 ∧ t.p = s.p ∧ t.cell t.p = 0 ∧
      t.loops = s.loops ∧ visits e k s = (s.cell s.p).toNat

/-- Cell arithmetic (42_cell.md): INCR_VAL and DECR_VAL are inverses in either order, and `k` of the one add `k`
modulo 256. -/
def Obligations.CellArithmeticLaws : Prop :=
  ∀ s : State, Memory.wf s.tape → s.p < s.len →
    (∃ t, exec .incrVal s = .next t ∧ exec .decrVal t = .next { s with ip := s.ip + 2, fsm := .fetch }) ∧
    (∃ t, exec .decrVal s = .next t ∧ exec .incrVal t = .next { s with ip := s.ip + 2, fsm := .fetch }) ∧
    (∀ k, ∃ t, iterate (exec .incrVal) k s = .next t ∧
      (t.cell s.p).toNat = ((s.cell s.p).toNat + k) % 256 ∧ ∀ a, a ≠ s.p → t.cell a = s.cell a) ∧
    ∀ k, ∃ t, iterate (exec .decrVal) k s = .next t ∧
      ((t.cell s.p).toNat + k) % 256 = (s.cell s.p).toNat ∧ ∀ a, a ≠ s.p → t.cell a = s.cell a

/-- Pointer laws (41_pointer.md): in strict mode both orders restore `p`; in permissive mode up then down restores
it, and down then up restores it unless `p` is 0, where it leaves 1 (on a tape pointer of at least one bit). -/
def Obligations.PointerMovesInvert : Prop :=
  ∀ s t u : State, s.p < 2 ^ s.hw.ptrWidth → t.status.run = .running →
    (exec .incrPtr s = .next t → exec .decrPtr t = .next u →
      (s.cfgStrict = true ∨ s.p + 1 < 2 ^ s.hw.ptrWidth) → u.p = s.p) ∧
    (exec .decrPtr s = .next t → exec .incrPtr t = .next u → u.status.run = .running →
      (s.cfgStrict = true → u.p = s.p) ∧
      (s.cfgStrict = false → 1 < 2 ^ s.hw.ptrWidth → u.p = if s.p = 0 then 1 else s.p))

/-- A hold keeps all state, and what ends it completes the instruction as if there had been no hold
(60_exceptions.md section 6, decision D11; log 11). -/
def Obligations.HoldKeepsStateAndResumes : Prop :=
  ∀ s : State, s.p < s.len →
    (s.inAnswers = [] → s.status.waitIn = false → s.fsm = .fetch →
      ∃ h, exec .read s = .next h ∧ h.status.waitIn = true ∧
        { h with status := { h.status with waitIn := false }, fsm := .fetch } = s ∧
        exec .read h = .next h ∧
        ∀ a, exec .read { h with inAnswers := [a] } = exec .read { s with inAnswers := [a] }) ∧
    (s.outReady = false → s.status.waitOut = false → s.fsm = .fetch →
      ∃ h, exec .write s = .next h ∧ h.status.waitOut = true ∧
        { h with status := { h.status with waitOut := false }, fsm := .fetch } = s ∧
        exec .write h = .next h ∧
        exec .write { h with outReady := true } = exec .write { s with outReady := true })

/-- A step does not depend on answers the host gives later: unless it waits for one, more answers behind those
queued change nothing but that they are still queued (40_dispatch.md section 5, 20_memory.md section 6). -/
def Obligations.LaterAnswersDoNotMatter : Prop :=
  ∀ (s t : State) (more : List InAnswer), step s = .next t → t.fsm ≠ .waitIn →
    step { s with inAnswers := s.inAnswers ++ more } = .next { t with inAnswers := t.inAnswers ++ more }

/-- R74: during a run a host action changes nothing but the channels, and what the host reads is STATUS alone. -/
def Obligations.HostReachesOnlyChannelsAndStatus : Prop :=
  ∀ s : State, s.status.run = .running →
    (∀ a t, hostAct a s = .next t → t = { s with inAnswers := t.inAnswers, outReady := t.outReady }) ∧
    ∀ t : State, t.status = s.status → hostView t = hostView s

/-- STATUS as the host reads it (10_state.md section 4, decisions D9 and D10): each field at its bits, and no two
statuses with the same word. -/
def Obligations.StatusWordLayout : Prop :=
  (∀ t : Status,
    t.word.extractLsb' 0 2 = t.run.code ∧ t.word.getLsbD 2 = t.waitIn ∧ t.word.getLsbD 3 = t.waitOut ∧
    t.word.extractLsb' 4 3 = t.errCode ∧ t.word.getLsbD 7 = t.policy ∧ t.errCode ≠ 7) ∧
  ∀ t u : Status, t.word = u.word → t = u

/-- R191: DONE maps to exit code 0 and ERROR with any ERR to 1; a step of a sound run that ends it gives 0 exactly at
`ip == L`. -/
def Obligations.ExitCodeFollowsTerminalStatus : Prop :=
  (∀ s : State, s.status.run = .done → exitCode s = some 0) ∧
  (∀ s : State, s.status.run = .error → exitCode s = some 1) ∧
  ∀ s t : State, BlockInv s → s.status.run = .running → step s = .next t →
    (exitCode t = some 0 ↔ s.ip = 2 * s.prog.length) ∧ (exitCode t = some 1 ↔ t.status.err ≠ none)

/-! ### Invariants, and the finer machine -/

/-- Every step of the engine keeps the invariant. -/
def Obligations.StepKeepsInvariant : Prop :=
  ∀ s t : State, BlockInv s → step s = .next t → BlockInv t

/-- Every host action keeps the invariant. -/
def Obligations.HostActionKeepsInvariant : Prop :=
  ∀ (a : HostAct) (s t : State), BlockInv s → hostAct a s = .next t → BlockInv t

/-- From a state that meets the invariant the engine's step is never a fault and never a refusal: no cell outside the
tape is accessed (20_memory.md section 2), and no position outside the program is fetched. -/
def Obligations.InvariantRulesOutFault : Prop :=
  ∀ s : State, BlockInv s → ∃ t, step s = .next t

/-- On every machine whose parameters meet their constraints, no interleaving of engine steps and host actions from
power-on ends in a fault of the model, and every state it reaches meets the invariant. -/
def Obligations.ReachableStatesAreSound : Prop :=
  ∀ hw : Params, hw.wf →
    (∀ (events : List Event) (f : Fault), onEvents events (State.powerOn hw) ≠ .fault f) ∧
    ∀ s, Reachable hw s → BlockInv s

/-- The tape's cells keep their canonical form at every event, in every state. -/
def Obligations.TapeKeepsCanonicalForm : Prop :=
  ∀ (e : Event) (s t : State), Memory.wf s.tape → onEvent e s = .next t → Memory.wf t.tape

/-- In strict mode `p` leaves the tape only by DECR_PTR at 0, which sets it to `2^PTR_WIDTH - 1`, outside the tape
(20_memory.md section 2), for a host that keeps `STEP <= TAPE_MAX` (log 15). -/
def Obligations.StrictPointerLeavesTapeOnlyByUnderflow : Prop :=
  ∀ s t : State, BlockInv s → s.status.run = .running → s.cfgStep ≤ s.hw.tapeMax → s.cfgStrict = true →
    s.p < s.len → step s = .next t →
    t.p < t.len ∨
      (fetchInstr s = some .decrPtr ∧ s.p = 0 ∧ t.p = 2 ^ s.hw.ptrWidth - 1 ∧ t.len ≤ t.p)

/-- During a run the tape never shrinks, and its length changes by whole steps (20_memory.md section 2). -/
def Obligations.TapeGrowsInWholeSteps : Prop :=
  ∀ (k : Nat) (s t : State), runFor k s = .next t → ∃ n, t.len = s.len + n * s.cfgStep

/-- The loop stack never exceeds the number of LOOP_STARTs, and with LSTACK_MAX at least that number rounded up to
whole steps a push never raises CapacityExceeded (20_memory.md section 3). -/
def Obligations.LargeEnoughLoopStackNeverOverflows : Prop :=
  ∀ s t : State, BlockInv s → s.status.run = .running →
    s.depth ≤ loopStartCount s.hw.opmap s.prog ∧
    (s.cfgStep * ((loopStartCount s.hw.opmap s.prog + s.cfgStep - 1) / s.cfgStep) ≤ s.hw.lstackMax →
      fetchInstr s = some .loopStart → step s = .next t → t.status.err ≠ some .capacityExceeded)

/-- The FSM by its internal steps performs exactly the architectural step, from FETCH, within the bound of
40_dispatch.md section 4 (decision D12): one step each for FETCH and EXEC beside at most `L - ip` others. -/
def Obligations.FsmPerformsArchitecturalStep : Prop :=
  ∀ s : State, s.status.run = .running → s.fsm = .fetch →
    ∃ n, n ≤ s.progLen - s.ip + 2 ∧ iterate microStep n s = step s

/-- No cell outside the tape is ever written, by the architectural step or by an internal step of the FSM, from any
state (20_memory.md section 2). In permissive mode a held READ outside the tape, which no run reaches, is the model
fault of decision D21; that it faults with no answer too is the model's choice (log 29). -/
def Obligations.NoCellOutsideTapeIsWritten : Prop :=
  (∀ s t : State, Memory.wf s.tape → (step s = .next t ∨ microStep s = .next t) →
    ∀ a, t.cell a ≠ s.cell a → a < t.len) ∧
  ∀ s : State, s.status.run = .running → s.fsm = .waitIn → s.len ≤ s.p → s.cfgStrict = false →
    microStep s = .fault .tapeAccessBeyondLen
end

