-- ==== Sys2Proof/Laws/Decode.lean ====
section
/-! SUPPORT. Small laws of the decoder: where a position has a nibble, and which part of a byte it is. -/

namespace Sys2Proof

theorem progNibble_eq_none_iff {bytes : List Byte} {k : Nat} :
    progNibble bytes k = none ↔ 2 * bytes.length ≤ k := by
  simp only [progNibble, Option.map_eq_none_iff, List.getElem?_eq_none_iff]
  omega

theorem opAt_eq_none_iff {m : OpMap} {bytes : List Byte} {k : Nat} :
    opAt m bytes k = none ↔ 2 * bytes.length ≤ k := by
  simp only [opAt, Option.map_eq_none_iff, progNibble_eq_none_iff]

/-- A position that holds an instruction lies below L. -/
theorem lt_of_opAt {m : OpMap} {bytes : List Byte} {k : Nat} {i : Instr} (h : opAt m bytes k = some i) :
    k < 2 * bytes.length := by
  by_contra hk
  rw [opAt_eq_none_iff.2 (by omega)] at h
  cases h

/-- Every position below L holds an instruction (R81, R86). -/
theorem exists_opAt (m : OpMap) {bytes : List Byte} {k : Nat} (h : k < 2 * bytes.length) :
    ∃ i, opAt m bytes k = some i := by
  cases e : opAt m bytes k with
  | none => rw [opAt_eq_none_iff] at e; omega
  | some i => exact ⟨i, rfl⟩

theorem opAt_of_nibble {m : OpMap} {bytes : List Byte} {k : Nat} {n : Nibble} (h : progNibble bytes k = some n) :
    opAt m bytes k = some (decodeNibble m n) := by
  simp only [opAt, h, Option.map_some]

@[simp] theorem highNibble_pack (a b : Nibble) : highNibble (packNibbles a b) = a := by
  revert a b; decide

@[simp] theorem lowNibble_pack (a b : Nibble) : lowNibble (packNibbles a b) = b := by
  revert a b; decide

end Sys2Proof
end

