-- ==== Sys2Proof/Laws/Memory.lean ====
section
/-! SUPPORT. The laws of the tape's cells as a canonical list: read after write, read elsewhere, the canonical form
is kept, equal reads are equal lists. -/

namespace Sys2Proof.Machine

open Sys2Proof

@[simp] theorem Memory.read_nil (a : Nat) : Memory.read [] a = 0 := rfl

theorem Memory.wf_nil : Memory.wf [] := by simp [Memory.wf]

theorem Memory.wf_cons_iff {c : Host.Cell} {m : List Host.Cell} :
    Memory.wf (c :: m) ↔ (∀ d ∈ m, c.1 < d.1) ∧ c.2 ≠ 0 ∧ Memory.wf m := by
  simp only [Memory.wf, List.pairwise_cons, List.forall_mem_cons, Memory.unlisted]
  tauto

/-- No cell listed at or below `a` means the byte at `a` is unlisted. -/
theorem Memory.read_of_lt {m : List Host.Cell} {a : Nat} (h : ∀ c ∈ m, a < c.1) : Memory.read m a = 0 := by
  induction m with
  | nil => rfl
  | cons c m ih =>
    have hc : c.1 ≠ a := by have := h c (by simp); omega
    simp only [Memory.read, if_neg hc]
    exact ih fun d hd => h d (by simp [hd])

theorem Memory.read_consCell {a b : Nat} {v : Byte} {m : List Host.Cell} (h : ∀ c ∈ m, a < c.1) :
    Memory.read (Memory.consCell a v m) b = if b = a then v else Memory.read m b := by
  unfold Memory.consCell
  by_cases hv : v = Memory.unlisted
  · rw [if_pos hv]
    split
    · next hb => rw [hb, Memory.read_of_lt h, hv]; rfl
    · rfl
  · rw [if_neg hv]
    simp only [Memory.read, eq_comm]

theorem Memory.mem_consCell {a : Nat} {v : Byte} {m : List Host.Cell} {c : Host.Cell}
    (h : c ∈ Memory.consCell a v m) : c = (a, v) ∨ c ∈ m := by
  unfold Memory.consCell at h
  split at h
  · exact .inr h
  · simpa using h

theorem Memory.mem_write {m : List Host.Cell} {a : Nat} {v : Byte} {c : Host.Cell}
    (h : c ∈ Memory.write m a v) : c = (a, v) ∨ c ∈ m := by
  induction m with
  | nil => exact Memory.mem_consCell h
  | cons d m ih =>
    simp only [Memory.write] at h
    split at h
    · exact Memory.mem_consCell h
    · split at h
      · exact (Memory.mem_consCell h).imp_right (List.mem_cons_of_mem d)
      · obtain rfl | h := List.mem_cons.1 h
        · exact .inr (by simp)
        · exact (ih h).imp_right (List.mem_cons_of_mem d)

theorem Memory.wf_consCell {a : Nat} {v : Byte} {m : List Host.Cell} (h : ∀ c ∈ m, a < c.1) (hm : Memory.wf m) :
    Memory.wf (Memory.consCell a v m) := by
  unfold Memory.consCell
  split
  · exact hm
  · next hv => exact Memory.wf_cons_iff.2 ⟨h, hv, hm⟩

/-- A write keeps the canonical form. -/
theorem Memory.wf_write {m : List Host.Cell} (a : Nat) (v : Byte) (hm : Memory.wf m) :
    Memory.wf (Memory.write m a v) := by
  induction m with
  | nil => exact Memory.wf_consCell (by simp) hm
  | cons c m ih =>
    obtain ⟨hc, hv, hm'⟩ := Memory.wf_cons_iff.1 hm
    simp only [Memory.write]
    split
    · next hlt =>
      refine Memory.wf_consCell (fun d hd => ?_) hm
      obtain rfl | hd := List.mem_cons.1 hd
      · exact hlt
      · exact hlt.trans (hc d hd)
    · split
      · next heq => exact Memory.wf_consCell (fun d hd => heq ▸ hc d hd) hm'
      · refine Memory.wf_cons_iff.2 ⟨fun d hd => ?_, hv, ih hm'⟩
        obtain rfl | hd := Memory.mem_write hd
        · change c.1 < a
          omega
        · exact hc d hd

/-- Zeroing a range keeps the canonical form. -/
theorem Memory.wf_zeroRange {m : List Host.Cell} (lo n : Nat) (hm : Memory.wf m) :
    Memory.wf (Memory.zeroRange m lo n) :=
  ⟨hm.1.filter _, fun c hc => hm.2 c (List.mem_of_mem_filter hc)⟩

theorem Memory.read_eq_zero_of_not_mem {m : List Host.Cell} {a : Nat} (h : ∀ c ∈ m, c.1 ≠ a) :
    Memory.read m a = 0 := by
  induction m with
  | nil => rfl
  | cons c m ih =>
    simp only [Memory.read, if_neg (h c (by simp))]
    exact ih fun d hd => h d (by simp [hd])

/-- Zeroing a range reads as 0 inside it and as before outside. -/
theorem Memory.read_zeroRange (m : List Host.Cell) (lo n a : Nat) :
    Memory.read (Memory.zeroRange m lo n) a = if lo ≤ a ∧ a < lo + n then 0 else Memory.read m a := by
  induction m with
  | nil => simp [Memory.zeroRange]
  | cons c m ih =>
    unfold Memory.zeroRange at ih ⊢
    by_cases hc : c.1 < lo ∨ lo + n ≤ c.1
    · rw [List.filter_cons_of_pos (by simpa using hc)]
      simp only [Memory.read, ih]
      by_cases ha : c.1 = a
      · rw [if_pos ha, if_neg (by omega), if_pos ha]
      · rw [if_neg ha, if_neg ha]
    · rw [List.filter_cons_of_neg (by simpa using hc), ih]
      by_cases ha : c.1 = a
      · rw [if_pos (by omega), if_pos (by omega)]
      · simp only [Memory.read, if_neg ha]

/-- Read after write in a canonical list: the written byte at its index, the byte before elsewhere. -/
theorem Memory.read_write {m : List Host.Cell} (hm : Memory.wf m) (a b : Nat) (v : Byte) :
    Memory.read (Memory.write m a v) b = if b = a then v else Memory.read m b := by
  induction m with
  | nil => exact Memory.read_consCell (by simp)
  | cons c m ih =>
    obtain ⟨hc, -, hm'⟩ := Memory.wf_cons_iff.1 hm
    simp only [Memory.write]
    split
    · next hlt =>
      refine Memory.read_consCell fun d hd => ?_
      obtain rfl | hd := List.mem_cons.1 hd
      · exact hlt
      · exact hlt.trans (hc d hd)
    · split
      · next heq =>
        rw [Memory.read_consCell fun d hd => heq ▸ hc d hd]
        split
        · rfl
        · next hb => simp only [Memory.read, if_neg fun h : c.1 = b => hb (by omega)]
      · next hne =>
        simp only [Memory.read, ih hm']
        by_cases hb : c.1 = b
        · rw [if_pos hb, if_neg (by omega), if_pos hb]
        · rw [if_neg hb, if_neg hb]

/-- The least listed index of a non-empty canonical list reads as a non-zero byte, and below it all is zero; equal
reads are then equal lists. -/
theorem Memory.ext {m n : List Host.Cell} (hm : Memory.wf m) (hn : Memory.wf n)
    (h : ∀ a, Memory.read m a = Memory.read n a) : m = n := by
  induction m generalizing n with
  | nil =>
    cases n with
    | nil => rfl
    | cons d n =>
      have := (Memory.wf_cons_iff.1 hn).2.1
      have hd := h d.1
      simp [Memory.read] at hd
      exact absurd hd.symm this
  | cons c m ih =>
    obtain ⟨hc, hcv, hm'⟩ := Memory.wf_cons_iff.1 hm
    cases n with
    | nil =>
      have hd := h c.1
      simp [Memory.read] at hd
      exact absurd hd hcv
    | cons d n =>
      obtain ⟨hd, hdv, hn'⟩ := Memory.wf_cons_iff.1 hn
      have h1 : c.1 = d.1 := by
        rcases Nat.lt_trichotomy c.1 d.1 with hlt | heq | hlt
        · have e := h c.1
          rw [Memory.read_of_lt (m := d :: n) (by
            intro x hx
            obtain rfl | hx := List.mem_cons.1 hx
            · exact hlt
            · exact hlt.trans (hd x hx))] at e
          simp [Memory.read] at e
          exact absurd e hcv
        · exact heq
        · have e := h d.1
          rw [Memory.read_of_lt (m := c :: m) (by
            intro x hx
            obtain rfl | hx := List.mem_cons.1 hx
            · exact hlt
            · exact hlt.trans (hc x hx))] at e
          simp [Memory.read] at e
          exact absurd e.symm hdv
      have h2 : c.2 = d.2 := by
        have e := h c.1
        simpa [Memory.read, h1] using e
      have h3 : m = n := by
        refine ih hm' hn' fun a => ?_
        by_cases ha : c.1 = a
        · rw [Memory.read_of_lt (m := m) (ha ▸ hc), Memory.read_of_lt (m := n) (ha ▸ h1 ▸ hd)]
        · have e := h a
          simpa [Memory.read, ha, h1 ▸ ha] using e
      rw [h3, show c = d from Prod.ext h1 h2]

end Sys2Proof.Machine
end

