-- ==== Sys2Proof/Laws/State.lean ====
section
/-! SUPPORT. One lemma per field of State for each named update, so that no later proof unfolds a record update. -/

namespace Sys2Proof.Machine

open Sys2Proof

/-! ### State.retire -/

@[simp] theorem State.retire_hw (pos : Nat) (s : State) : (s.retire pos).hw = s.hw := rfl
@[simp] theorem State.retire_ip (pos : Nat) (s : State) : (s.retire pos).ip = pos := rfl
@[simp] theorem State.retire_p (pos : Nat) (s : State) : (s.retire pos).p = s.p := rfl
@[simp] theorem State.retire_cfgStep (pos : Nat) (s : State) : (s.retire pos).cfgStep = s.cfgStep := rfl
@[simp] theorem State.retire_cfgStrict (pos : Nat) (s : State) : (s.retire pos).cfgStrict = s.cfgStrict := rfl
@[simp] theorem State.retire_status (pos : Nat) (s : State) : (s.retire pos).status = s.status := rfl
@[simp] theorem State.retire_errIp (pos : Nat) (s : State) : (s.retire pos).errIp = s.errIp := rfl
@[simp] theorem State.retire_len (pos : Nat) (s : State) : (s.retire pos).len = s.len := rfl
@[simp] theorem State.retire_tape (pos : Nat) (s : State) : (s.retire pos).tape = s.tape := rfl
@[simp] theorem State.retire_cap (pos : Nat) (s : State) : (s.retire pos).cap = s.cap := rfl
@[simp] theorem State.retire_loops (pos : Nat) (s : State) : (s.retire pos).loops = s.loops := rfl
@[simp] theorem State.retire_prog (pos : Nat) (s : State) : (s.retire pos).prog = s.prog := rfl
@[simp] theorem State.retire_fsm (pos : Nat) (s : State) : (s.retire pos).fsm = .fetch := rfl
@[simp] theorem State.retire_stepIn (pos : Nat) (s : State) : (s.retire pos).stepIn = s.stepIn := rfl
@[simp] theorem State.retire_strictIn (pos : Nat) (s : State) : (s.retire pos).strictIn = s.strictIn := rfl
@[simp] theorem State.retire_inAnswers (pos : Nat) (s : State) : (s.retire pos).inAnswers = s.inAnswers := rfl
@[simp] theorem State.retire_outReady (pos : Nat) (s : State) : (s.retire pos).outReady = s.outReady := rfl
@[simp] theorem State.retire_output (pos : Nat) (s : State) : (s.retire pos).output = s.output := rfl
@[simp] theorem State.retire_inTaken (pos : Nat) (s : State) : (s.retire pos).inTaken = s.inTaken := rfl

/-! ### State.raise -/

@[simp] theorem State.raise_hw (k : ErrKind) (pos : Nat) (s : State) : (s.raise k pos).hw = s.hw := rfl
@[simp] theorem State.raise_ip (k : ErrKind) (pos : Nat) (s : State) : (s.raise k pos).ip = s.ip := rfl
@[simp] theorem State.raise_p (k : ErrKind) (pos : Nat) (s : State) : (s.raise k pos).p = s.p := rfl
@[simp] theorem State.raise_cfgStep (k : ErrKind) (pos : Nat) (s : State) : (s.raise k pos).cfgStep = s.cfgStep := rfl
@[simp] theorem State.raise_cfgStrict (k : ErrKind) (pos : Nat) (s : State) : (s.raise k pos).cfgStrict = s.cfgStrict := rfl
@[simp] theorem State.raise_status (k : ErrKind) (pos : Nat) (s : State) : (s.raise k pos).status = { s.status with run := .error, err := some k, waitIn := false, waitOut := false } := rfl
@[simp] theorem State.raise_errIp (k : ErrKind) (pos : Nat) (s : State) : (s.raise k pos).errIp = pos := rfl
@[simp] theorem State.raise_len (k : ErrKind) (pos : Nat) (s : State) : (s.raise k pos).len = s.len := rfl
@[simp] theorem State.raise_tape (k : ErrKind) (pos : Nat) (s : State) : (s.raise k pos).tape = s.tape := rfl
@[simp] theorem State.raise_cap (k : ErrKind) (pos : Nat) (s : State) : (s.raise k pos).cap = s.cap := rfl
@[simp] theorem State.raise_loops (k : ErrKind) (pos : Nat) (s : State) : (s.raise k pos).loops = s.loops := rfl
@[simp] theorem State.raise_prog (k : ErrKind) (pos : Nat) (s : State) : (s.raise k pos).prog = s.prog := rfl
@[simp] theorem State.raise_fsm (k : ErrKind) (pos : Nat) (s : State) : (s.raise k pos).fsm = .fetch := rfl
@[simp] theorem State.raise_stepIn (k : ErrKind) (pos : Nat) (s : State) : (s.raise k pos).stepIn = s.stepIn := rfl
@[simp] theorem State.raise_strictIn (k : ErrKind) (pos : Nat) (s : State) : (s.raise k pos).strictIn = s.strictIn := rfl
@[simp] theorem State.raise_inAnswers (k : ErrKind) (pos : Nat) (s : State) : (s.raise k pos).inAnswers = s.inAnswers := rfl
@[simp] theorem State.raise_outReady (k : ErrKind) (pos : Nat) (s : State) : (s.raise k pos).outReady = s.outReady := rfl
@[simp] theorem State.raise_output (k : ErrKind) (pos : Nat) (s : State) : (s.raise k pos).output = s.output := rfl
@[simp] theorem State.raise_inTaken (k : ErrKind) (pos : Nat) (s : State) : (s.raise k pos).inTaken = s.inTaken := rfl

/-! ### State.finish -/

@[simp] theorem State.finish_hw (s : State) : (s.finish).hw = s.hw := rfl
@[simp] theorem State.finish_ip (s : State) : (s.finish).ip = s.ip := rfl
@[simp] theorem State.finish_p (s : State) : (s.finish).p = s.p := rfl
@[simp] theorem State.finish_cfgStep (s : State) : (s.finish).cfgStep = s.cfgStep := rfl
@[simp] theorem State.finish_cfgStrict (s : State) : (s.finish).cfgStrict = s.cfgStrict := rfl
@[simp] theorem State.finish_status (s : State) : (s.finish).status = { s.status with run := .done } := rfl
@[simp] theorem State.finish_errIp (s : State) : (s.finish).errIp = s.errIp := rfl
@[simp] theorem State.finish_len (s : State) : (s.finish).len = s.len := rfl
@[simp] theorem State.finish_tape (s : State) : (s.finish).tape = s.tape := rfl
@[simp] theorem State.finish_cap (s : State) : (s.finish).cap = s.cap := rfl
@[simp] theorem State.finish_loops (s : State) : (s.finish).loops = s.loops := rfl
@[simp] theorem State.finish_prog (s : State) : (s.finish).prog = s.prog := rfl
@[simp] theorem State.finish_fsm (s : State) : (s.finish).fsm = .fetch := rfl
@[simp] theorem State.finish_stepIn (s : State) : (s.finish).stepIn = s.stepIn := rfl
@[simp] theorem State.finish_strictIn (s : State) : (s.finish).strictIn = s.strictIn := rfl
@[simp] theorem State.finish_inAnswers (s : State) : (s.finish).inAnswers = s.inAnswers := rfl
@[simp] theorem State.finish_outReady (s : State) : (s.finish).outReady = s.outReady := rfl
@[simp] theorem State.finish_output (s : State) : (s.finish).output = s.output := rfl
@[simp] theorem State.finish_inTaken (s : State) : (s.finish).inTaken = s.inTaken := rfl

/-! ### State.holdIn -/

@[simp] theorem State.holdIn_hw (s : State) : (s.holdIn).hw = s.hw := rfl
@[simp] theorem State.holdIn_ip (s : State) : (s.holdIn).ip = s.ip := rfl
@[simp] theorem State.holdIn_p (s : State) : (s.holdIn).p = s.p := rfl
@[simp] theorem State.holdIn_cfgStep (s : State) : (s.holdIn).cfgStep = s.cfgStep := rfl
@[simp] theorem State.holdIn_cfgStrict (s : State) : (s.holdIn).cfgStrict = s.cfgStrict := rfl
@[simp] theorem State.holdIn_status (s : State) : (s.holdIn).status = { s.status with waitIn := true } := rfl
@[simp] theorem State.holdIn_errIp (s : State) : (s.holdIn).errIp = s.errIp := rfl
@[simp] theorem State.holdIn_len (s : State) : (s.holdIn).len = s.len := rfl
@[simp] theorem State.holdIn_tape (s : State) : (s.holdIn).tape = s.tape := rfl
@[simp] theorem State.holdIn_cap (s : State) : (s.holdIn).cap = s.cap := rfl
@[simp] theorem State.holdIn_loops (s : State) : (s.holdIn).loops = s.loops := rfl
@[simp] theorem State.holdIn_prog (s : State) : (s.holdIn).prog = s.prog := rfl
@[simp] theorem State.holdIn_fsm (s : State) : (s.holdIn).fsm = .waitIn := rfl
@[simp] theorem State.holdIn_stepIn (s : State) : (s.holdIn).stepIn = s.stepIn := rfl
@[simp] theorem State.holdIn_strictIn (s : State) : (s.holdIn).strictIn = s.strictIn := rfl
@[simp] theorem State.holdIn_inAnswers (s : State) : (s.holdIn).inAnswers = s.inAnswers := rfl
@[simp] theorem State.holdIn_outReady (s : State) : (s.holdIn).outReady = s.outReady := rfl
@[simp] theorem State.holdIn_output (s : State) : (s.holdIn).output = s.output := rfl
@[simp] theorem State.holdIn_inTaken (s : State) : (s.holdIn).inTaken = s.inTaken := rfl

/-! ### State.holdOut -/

@[simp] theorem State.holdOut_hw (v : Byte) (s : State) : (s.holdOut v).hw = s.hw := rfl
@[simp] theorem State.holdOut_ip (v : Byte) (s : State) : (s.holdOut v).ip = s.ip := rfl
@[simp] theorem State.holdOut_p (v : Byte) (s : State) : (s.holdOut v).p = s.p := rfl
@[simp] theorem State.holdOut_cfgStep (v : Byte) (s : State) : (s.holdOut v).cfgStep = s.cfgStep := rfl
@[simp] theorem State.holdOut_cfgStrict (v : Byte) (s : State) : (s.holdOut v).cfgStrict = s.cfgStrict := rfl
@[simp] theorem State.holdOut_status (v : Byte) (s : State) : (s.holdOut v).status = { s.status with waitOut := true } := rfl
@[simp] theorem State.holdOut_errIp (v : Byte) (s : State) : (s.holdOut v).errIp = s.errIp := rfl
@[simp] theorem State.holdOut_len (v : Byte) (s : State) : (s.holdOut v).len = s.len := rfl
@[simp] theorem State.holdOut_tape (v : Byte) (s : State) : (s.holdOut v).tape = s.tape := rfl
@[simp] theorem State.holdOut_cap (v : Byte) (s : State) : (s.holdOut v).cap = s.cap := rfl
@[simp] theorem State.holdOut_loops (v : Byte) (s : State) : (s.holdOut v).loops = s.loops := rfl
@[simp] theorem State.holdOut_prog (v : Byte) (s : State) : (s.holdOut v).prog = s.prog := rfl
@[simp] theorem State.holdOut_fsm (v : Byte) (s : State) : (s.holdOut v).fsm = .waitOut v := rfl
@[simp] theorem State.holdOut_stepIn (v : Byte) (s : State) : (s.holdOut v).stepIn = s.stepIn := rfl
@[simp] theorem State.holdOut_strictIn (v : Byte) (s : State) : (s.holdOut v).strictIn = s.strictIn := rfl
@[simp] theorem State.holdOut_inAnswers (v : Byte) (s : State) : (s.holdOut v).inAnswers = s.inAnswers := rfl
@[simp] theorem State.holdOut_outReady (v : Byte) (s : State) : (s.holdOut v).outReady = s.outReady := rfl
@[simp] theorem State.holdOut_output (v : Byte) (s : State) : (s.holdOut v).output = s.output := rfl
@[simp] theorem State.holdOut_inTaken (v : Byte) (s : State) : (s.holdOut v).inTaken = s.inTaken := rfl

/-! ### State.setCell -/

@[simp] theorem State.setCell_hw (v : Byte) (s : State) : (s.setCell v).hw = s.hw := rfl
@[simp] theorem State.setCell_ip (v : Byte) (s : State) : (s.setCell v).ip = s.ip := rfl
@[simp] theorem State.setCell_p (v : Byte) (s : State) : (s.setCell v).p = s.p := rfl
@[simp] theorem State.setCell_cfgStep (v : Byte) (s : State) : (s.setCell v).cfgStep = s.cfgStep := rfl
@[simp] theorem State.setCell_cfgStrict (v : Byte) (s : State) : (s.setCell v).cfgStrict = s.cfgStrict := rfl
@[simp] theorem State.setCell_status (v : Byte) (s : State) : (s.setCell v).status = s.status := rfl
@[simp] theorem State.setCell_errIp (v : Byte) (s : State) : (s.setCell v).errIp = s.errIp := rfl
@[simp] theorem State.setCell_len (v : Byte) (s : State) : (s.setCell v).len = s.len := rfl
@[simp] theorem State.setCell_tape (v : Byte) (s : State) : (s.setCell v).tape = Memory.write s.tape s.p v := rfl
@[simp] theorem State.setCell_cap (v : Byte) (s : State) : (s.setCell v).cap = s.cap := rfl
@[simp] theorem State.setCell_loops (v : Byte) (s : State) : (s.setCell v).loops = s.loops := rfl
@[simp] theorem State.setCell_prog (v : Byte) (s : State) : (s.setCell v).prog = s.prog := rfl
@[simp] theorem State.setCell_fsm (v : Byte) (s : State) : (s.setCell v).fsm = s.fsm := rfl
@[simp] theorem State.setCell_stepIn (v : Byte) (s : State) : (s.setCell v).stepIn = s.stepIn := rfl
@[simp] theorem State.setCell_strictIn (v : Byte) (s : State) : (s.setCell v).strictIn = s.strictIn := rfl
@[simp] theorem State.setCell_inAnswers (v : Byte) (s : State) : (s.setCell v).inAnswers = s.inAnswers := rfl
@[simp] theorem State.setCell_outReady (v : Byte) (s : State) : (s.setCell v).outReady = s.outReady := rfl
@[simp] theorem State.setCell_output (v : Byte) (s : State) : (s.setCell v).output = s.output := rfl
@[simp] theorem State.setCell_inTaken (v : Byte) (s : State) : (s.setCell v).inTaken = s.inTaken := rfl

/-! ### State.acceptOut -/

@[simp] theorem State.acceptOut_hw (b : Byte) (s : State) : (s.acceptOut b).hw = s.hw := rfl
@[simp] theorem State.acceptOut_ip (b : Byte) (s : State) : (s.acceptOut b).ip = s.ip + 1 := rfl
@[simp] theorem State.acceptOut_p (b : Byte) (s : State) : (s.acceptOut b).p = s.p := rfl
@[simp] theorem State.acceptOut_cfgStep (b : Byte) (s : State) : (s.acceptOut b).cfgStep = s.cfgStep := rfl
@[simp] theorem State.acceptOut_cfgStrict (b : Byte) (s : State) : (s.acceptOut b).cfgStrict = s.cfgStrict := rfl
@[simp] theorem State.acceptOut_status (b : Byte) (s : State) : (s.acceptOut b).status = { s.status with waitOut := false } := rfl
@[simp] theorem State.acceptOut_errIp (b : Byte) (s : State) : (s.acceptOut b).errIp = s.errIp := rfl
@[simp] theorem State.acceptOut_len (b : Byte) (s : State) : (s.acceptOut b).len = s.len := rfl
@[simp] theorem State.acceptOut_tape (b : Byte) (s : State) : (s.acceptOut b).tape = s.tape := rfl
@[simp] theorem State.acceptOut_cap (b : Byte) (s : State) : (s.acceptOut b).cap = s.cap := rfl
@[simp] theorem State.acceptOut_loops (b : Byte) (s : State) : (s.acceptOut b).loops = s.loops := rfl
@[simp] theorem State.acceptOut_prog (b : Byte) (s : State) : (s.acceptOut b).prog = s.prog := rfl
@[simp] theorem State.acceptOut_fsm (b : Byte) (s : State) : (s.acceptOut b).fsm = .fetch := rfl
@[simp] theorem State.acceptOut_stepIn (b : Byte) (s : State) : (s.acceptOut b).stepIn = s.stepIn := rfl
@[simp] theorem State.acceptOut_strictIn (b : Byte) (s : State) : (s.acceptOut b).strictIn = s.strictIn := rfl
@[simp] theorem State.acceptOut_inAnswers (b : Byte) (s : State) : (s.acceptOut b).inAnswers = s.inAnswers := rfl
@[simp] theorem State.acceptOut_outReady (b : Byte) (s : State) : (s.acceptOut b).outReady = s.outReady := rfl
@[simp] theorem State.acceptOut_output (b : Byte) (s : State) : (s.acceptOut b).output = s.output ++ [b] := rfl
@[simp] theorem State.acceptOut_inTaken (b : Byte) (s : State) : (s.acceptOut b).inTaken = s.inTaken := rfl

/-! ### State.sampleInputs -/

@[simp] theorem State.sampleInputs_hw (s : State) : (s.sampleInputs).hw = s.hw := rfl
@[simp] theorem State.sampleInputs_ip (s : State) : (s.sampleInputs).ip = s.ip := rfl
@[simp] theorem State.sampleInputs_p (s : State) : (s.sampleInputs).p = s.p := rfl
@[simp] theorem State.sampleInputs_cfgStep (s : State) : (s.sampleInputs).cfgStep = s.stepIn := rfl
@[simp] theorem State.sampleInputs_cfgStrict (s : State) : (s.sampleInputs).cfgStrict = s.strictIn := rfl
@[simp] theorem State.sampleInputs_status (s : State) : (s.sampleInputs).status = { s.status with policy := s.strictIn } := rfl
@[simp] theorem State.sampleInputs_errIp (s : State) : (s.sampleInputs).errIp = s.errIp := rfl
@[simp] theorem State.sampleInputs_len (s : State) : (s.sampleInputs).len = s.len := rfl
@[simp] theorem State.sampleInputs_tape (s : State) : (s.sampleInputs).tape = s.tape := rfl
@[simp] theorem State.sampleInputs_cap (s : State) : (s.sampleInputs).cap = s.cap := rfl
@[simp] theorem State.sampleInputs_loops (s : State) : (s.sampleInputs).loops = s.loops := rfl
@[simp] theorem State.sampleInputs_prog (s : State) : (s.sampleInputs).prog = s.prog := rfl
@[simp] theorem State.sampleInputs_fsm (s : State) : (s.sampleInputs).fsm = s.fsm := rfl
@[simp] theorem State.sampleInputs_stepIn (s : State) : (s.sampleInputs).stepIn = s.stepIn := rfl
@[simp] theorem State.sampleInputs_strictIn (s : State) : (s.sampleInputs).strictIn = false := rfl
@[simp] theorem State.sampleInputs_inAnswers (s : State) : (s.sampleInputs).inAnswers = s.inAnswers := rfl
@[simp] theorem State.sampleInputs_outReady (s : State) : (s.sampleInputs).outReady = s.outReady := rfl
@[simp] theorem State.sampleInputs_output (s : State) : (s.sampleInputs).output = [] := rfl
@[simp] theorem State.sampleInputs_inTaken (s : State) : (s.sampleInputs).inTaken = [] := rfl

/-! ### State.initRun -/

@[simp] theorem State.initRun_hw (s : State) : (s.initRun).hw = s.hw := rfl
@[simp] theorem State.initRun_ip (s : State) : (s.initRun).ip = 0 := rfl
@[simp] theorem State.initRun_p (s : State) : (s.initRun).p = 0 := rfl
@[simp] theorem State.initRun_cfgStep (s : State) : (s.initRun).cfgStep = s.cfgStep := rfl
@[simp] theorem State.initRun_cfgStrict (s : State) : (s.initRun).cfgStrict = s.cfgStrict := rfl
@[simp] theorem State.initRun_status (s : State) : (s.initRun).status = { s.status with run := .running, waitIn := false, waitOut := false, err := none } := rfl
@[simp] theorem State.initRun_errIp (s : State) : (s.initRun).errIp = 0 := rfl
@[simp] theorem State.initRun_len (s : State) : (s.initRun).len = s.cfgStep := rfl
@[simp] theorem State.initRun_tape (s : State) : (s.initRun).tape = [] := rfl
@[simp] theorem State.initRun_cap (s : State) : (s.initRun).cap = s.cfgStep := rfl
@[simp] theorem State.initRun_loops (s : State) : (s.initRun).loops = [] := rfl
@[simp] theorem State.initRun_prog (s : State) : (s.initRun).prog = s.prog := rfl
@[simp] theorem State.initRun_fsm (s : State) : (s.initRun).fsm = .fetch := rfl
@[simp] theorem State.initRun_stepIn (s : State) : (s.initRun).stepIn = s.stepIn := rfl
@[simp] theorem State.initRun_strictIn (s : State) : (s.initRun).strictIn = s.strictIn := rfl
@[simp] theorem State.initRun_inAnswers (s : State) : (s.initRun).inAnswers = s.inAnswers := rfl
@[simp] theorem State.initRun_outReady (s : State) : (s.initRun).outReady = s.outReady := rfl
@[simp] theorem State.initRun_output (s : State) : (s.initRun).output = s.output := rfl
@[simp] theorem State.initRun_inTaken (s : State) : (s.initRun).inTaken = s.inTaken := rfl

/-! ### State.storeAnswer and State.takeAnswer -/

theorem State.storeAnswer_cases (a : InAnswer) (s : State) :
    s.storeAnswer a = s ∨ ∃ v, s.storeAnswer a = s.setCell v := by
  cases a with
  | byte v => exact .inr ⟨v, rfl⟩
  | eof =>
    cases h : s.hw.eofPolicy with
    | eofZero => exact .inr ⟨0, by simp only [State.storeAnswer, h]⟩
    | eofUnchanged => exact .inl (by simp only [State.storeAnswer, h])

@[simp] theorem State.storeAnswer_hw (a : InAnswer) (s : State) : (s.storeAnswer a).hw = s.hw := by
  obtain h | ⟨v, h⟩ := s.storeAnswer_cases a <;> simp [h]

@[simp] theorem State.storeAnswer_ip (a : InAnswer) (s : State) : (s.storeAnswer a).ip = s.ip := by
  obtain h | ⟨v, h⟩ := s.storeAnswer_cases a <;> simp [h]

@[simp] theorem State.storeAnswer_p (a : InAnswer) (s : State) : (s.storeAnswer a).p = s.p := by
  obtain h | ⟨v, h⟩ := s.storeAnswer_cases a <;> simp [h]

@[simp] theorem State.storeAnswer_cfgStep (a : InAnswer) (s : State) : (s.storeAnswer a).cfgStep = s.cfgStep := by
  obtain h | ⟨v, h⟩ := s.storeAnswer_cases a <;> simp [h]

@[simp] theorem State.storeAnswer_cfgStrict (a : InAnswer) (s : State) : (s.storeAnswer a).cfgStrict = s.cfgStrict := by
  obtain h | ⟨v, h⟩ := s.storeAnswer_cases a <;> simp [h]

@[simp] theorem State.storeAnswer_status (a : InAnswer) (s : State) : (s.storeAnswer a).status = s.status := by
  obtain h | ⟨v, h⟩ := s.storeAnswer_cases a <;> simp [h]

@[simp] theorem State.storeAnswer_errIp (a : InAnswer) (s : State) : (s.storeAnswer a).errIp = s.errIp := by
  obtain h | ⟨v, h⟩ := s.storeAnswer_cases a <;> simp [h]

@[simp] theorem State.storeAnswer_len (a : InAnswer) (s : State) : (s.storeAnswer a).len = s.len := by
  obtain h | ⟨v, h⟩ := s.storeAnswer_cases a <;> simp [h]

@[simp] theorem State.storeAnswer_cap (a : InAnswer) (s : State) : (s.storeAnswer a).cap = s.cap := by
  obtain h | ⟨v, h⟩ := s.storeAnswer_cases a <;> simp [h]

@[simp] theorem State.storeAnswer_loops (a : InAnswer) (s : State) : (s.storeAnswer a).loops = s.loops := by
  obtain h | ⟨v, h⟩ := s.storeAnswer_cases a <;> simp [h]

@[simp] theorem State.storeAnswer_prog (a : InAnswer) (s : State) : (s.storeAnswer a).prog = s.prog := by
  obtain h | ⟨v, h⟩ := s.storeAnswer_cases a <;> simp [h]

@[simp] theorem State.storeAnswer_fsm (a : InAnswer) (s : State) : (s.storeAnswer a).fsm = s.fsm := by
  obtain h | ⟨v, h⟩ := s.storeAnswer_cases a <;> simp [h]

@[simp] theorem State.storeAnswer_stepIn (a : InAnswer) (s : State) : (s.storeAnswer a).stepIn = s.stepIn := by
  obtain h | ⟨v, h⟩ := s.storeAnswer_cases a <;> simp [h]

@[simp] theorem State.storeAnswer_strictIn (a : InAnswer) (s : State) : (s.storeAnswer a).strictIn = s.strictIn := by
  obtain h | ⟨v, h⟩ := s.storeAnswer_cases a <;> simp [h]

@[simp] theorem State.storeAnswer_inAnswers (a : InAnswer) (s : State) : (s.storeAnswer a).inAnswers = s.inAnswers := by
  obtain h | ⟨v, h⟩ := s.storeAnswer_cases a <;> simp [h]

@[simp] theorem State.storeAnswer_outReady (a : InAnswer) (s : State) : (s.storeAnswer a).outReady = s.outReady := by
  obtain h | ⟨v, h⟩ := s.storeAnswer_cases a <;> simp [h]

@[simp] theorem State.storeAnswer_output (a : InAnswer) (s : State) : (s.storeAnswer a).output = s.output := by
  obtain h | ⟨v, h⟩ := s.storeAnswer_cases a <;> simp [h]

@[simp] theorem State.storeAnswer_inTaken (a : InAnswer) (s : State) : (s.storeAnswer a).inTaken = s.inTaken := by
  obtain h | ⟨v, h⟩ := s.storeAnswer_cases a <;> simp [h]

@[simp] theorem State.takeAnswer_hw (a : InAnswer) (rest : List InAnswer) (s : State) :
    (s.takeAnswer a rest).hw = s.hw := by
  simp [State.takeAnswer]

@[simp] theorem State.takeAnswer_ip (a : InAnswer) (rest : List InAnswer) (s : State) :
    (s.takeAnswer a rest).ip = s.ip + 1 := rfl

@[simp] theorem State.takeAnswer_p (a : InAnswer) (rest : List InAnswer) (s : State) :
    (s.takeAnswer a rest).p = s.p := by
  simp [State.takeAnswer]

@[simp] theorem State.takeAnswer_cfgStep (a : InAnswer) (rest : List InAnswer) (s : State) :
    (s.takeAnswer a rest).cfgStep = s.cfgStep := by
  simp [State.takeAnswer]

@[simp] theorem State.takeAnswer_cfgStrict (a : InAnswer) (rest : List InAnswer) (s : State) :
    (s.takeAnswer a rest).cfgStrict = s.cfgStrict := by
  simp [State.takeAnswer]

@[simp] theorem State.takeAnswer_status (a : InAnswer) (rest : List InAnswer) (s : State) :
    (s.takeAnswer a rest).status = { s.status with waitIn := false } := by
  simp [State.takeAnswer]

@[simp] theorem State.takeAnswer_errIp (a : InAnswer) (rest : List InAnswer) (s : State) :
    (s.takeAnswer a rest).errIp = s.errIp := by
  simp [State.takeAnswer]

@[simp] theorem State.takeAnswer_len (a : InAnswer) (rest : List InAnswer) (s : State) :
    (s.takeAnswer a rest).len = s.len := by
  simp [State.takeAnswer]

@[simp] theorem State.takeAnswer_tape (a : InAnswer) (rest : List InAnswer) (s : State) :
    (s.takeAnswer a rest).tape = (s.storeAnswer a).tape := rfl

@[simp] theorem State.takeAnswer_cap (a : InAnswer) (rest : List InAnswer) (s : State) :
    (s.takeAnswer a rest).cap = s.cap := by
  simp [State.takeAnswer]

@[simp] theorem State.takeAnswer_loops (a : InAnswer) (rest : List InAnswer) (s : State) :
    (s.takeAnswer a rest).loops = s.loops := by
  simp [State.takeAnswer]

@[simp] theorem State.takeAnswer_prog (a : InAnswer) (rest : List InAnswer) (s : State) :
    (s.takeAnswer a rest).prog = s.prog := by
  simp [State.takeAnswer]

@[simp] theorem State.takeAnswer_fsm (a : InAnswer) (rest : List InAnswer) (s : State) :
    (s.takeAnswer a rest).fsm = .fetch := rfl

@[simp] theorem State.takeAnswer_stepIn (a : InAnswer) (rest : List InAnswer) (s : State) :
    (s.takeAnswer a rest).stepIn = s.stepIn := by
  simp [State.takeAnswer]

@[simp] theorem State.takeAnswer_strictIn (a : InAnswer) (rest : List InAnswer) (s : State) :
    (s.takeAnswer a rest).strictIn = s.strictIn := by
  simp [State.takeAnswer]

@[simp] theorem State.takeAnswer_inAnswers (a : InAnswer) (rest : List InAnswer) (s : State) :
    (s.takeAnswer a rest).inAnswers = rest := rfl

@[simp] theorem State.takeAnswer_outReady (a : InAnswer) (rest : List InAnswer) (s : State) :
    (s.takeAnswer a rest).outReady = s.outReady := by
  simp [State.takeAnswer]

@[simp] theorem State.takeAnswer_output (a : InAnswer) (rest : List InAnswer) (s : State) :
    (s.takeAnswer a rest).output = s.output := by
  simp [State.takeAnswer]

@[simp] theorem State.takeAnswer_inTaken (a : InAnswer) (rest : List InAnswer) (s : State) :
    (s.takeAnswer a rest).inTaken = s.inTaken ++ [a] := rfl

end Sys2Proof.Machine
end

