-- ==== Sys2Proof/Laws/Ops.lean ====
section
/-! SUPPORT. One lemma for each shared operation that says everything it can do, and one inversion lemma for each
meaning: the cases of its next state. Later proofs cite these and do not unfold the operations. -/

namespace Sys2Proof.Machine

open Sys2Proof

theorem next_eq_next_iff {s t : State} : (Host.Outcome.next s : Result) = .next t ↔ t = s := by
  rw [Host.Outcome.next.injEq, eq_comm]

/-! ### Bounds and growth -/

/-- The current cell as an operand: inside the tape `act` decides; outside it is a strict error or a model fault. -/
theorem accessCell_next {s t : State} {act : Byte → Result} :
    accessCell s act = .next t ↔
      (s.p < s.len ∧ act (s.cell s.p) = .next t) ∨
        (¬ s.p < s.len ∧ s.cfgStrict = true ∧ t = s.raise .dataIndexOutOfBounds s.ip) := by
  unfold accessCell
  by_cases h : s.inBounds
  · simp [h]
  · cases hs : s.cfgStrict <;> simp [h, eq_comm]

theorem accessCell_inBounds {s : State} {act : Byte → Result} (h : s.p < s.len) :
    accessCell s act = act (s.cell s.p) := if_pos h

theorem accessCell_strict {s : State} {act : Byte → Result} (h : ¬ s.p < s.len) (hs : s.cfgStrict = true) :
    accessCell s act = .next (s.raise .dataIndexOutOfBounds s.ip) := by
  rw [accessCell, if_neg h, if_pos hs]

theorem accessCell_permissive {s : State} {act : Byte → Result} (h : ¬ s.p < s.len) (hs : s.cfgStrict = false) :
    accessCell s act = .fault .tapeAccessBeyondLen := by
  rw [accessCell, if_neg h, if_neg (by simp [hs])]

/-- `Grow()` (R53): it succeeds exactly up to TAPE_MAX, and only `len` and the new cells change. -/
theorem growTape_eq_some {s t : State} :
    growTape s = some t ↔ s.len + s.cfgStep ≤ s.hw.tapeMax ∧
      t = { s with tape := Memory.zeroRange s.tape s.len s.cfgStep, len := s.len + s.cfgStep } := by
  unfold growTape
  split
  · simp; omega
  · simp [eq_comm]; omega

theorem growTape_eq_none {s : State} : growTape s = none ↔ s.hw.tapeMax < s.len + s.cfgStep := by
  unfold growTape
  split <;> simp <;> omega

/-- `Push(v)` (R60): the element is on top, and the capacity grows by STEP exactly where the stack was full. -/
theorem pushLoop_eq_some {v : Nat} {s t : State} :
    pushLoop v s = some t ↔
      (s.depth ≠ s.cap ∧ t = { s with loops := v :: s.loops }) ∨
        (s.depth = s.cap ∧ s.cap + s.cfgStep ≤ s.hw.lstackMax ∧
          t = { s with cap := s.cap + s.cfgStep, loops := v :: s.loops }) := by
  unfold pushLoop
  split
  · next hd =>
    split
    · next hc => simp [hd, Nat.not_le.2 hc]
    · next hc => simp [hd, Nat.not_lt.1 hc, eq_comm]
  · next hd => simp [hd, eq_comm]

theorem pushLoop_eq_none {v : Nat} {s : State} :
    pushLoop v s = none ↔ s.depth = s.cap ∧ s.hw.lstackMax < s.cap + s.cfgStep := by
  unfold pushLoop
  split
  · next hd => split <;> simp [*]
  · next hd => simp [hd]

/-! ### The meanings as their shared operation -/

theorem exec_incrVal (s : State) :
    exec .incrVal s = accessCell s fun v => .next ((s.setCell (v + 1)).retire (s.ip + 1)) := rfl

theorem exec_decrVal (s : State) :
    exec .decrVal s = accessCell s fun v => .next ((s.setCell (v - 1)).retire (s.ip + 1)) := rfl

theorem exec_write (s : State) : exec .write s = accessCell s fun v => .next (emit v s) := rfl

theorem exec_read (s : State) : exec .read s = accessCell s fun _ => .next (inputByte s) := rfl

theorem exec_loopStart (s : State) :
    exec .loopStart s = accessCell s fun v => .next (if cellIsZero v then skipLoop s else enterLoop s) := rfl

/-! ### The meanings, case by case -/

theorem execIncrPtr_next {s t : State} (h : execIncrPtr s = .next t) :
    (s.nextPtr ≠ s.len ∧ t = { s with p := s.nextPtr }.retire (s.ip + 1)) ∨
      (s.nextPtr = s.len ∧ s.len + s.cfgStep ≤ s.hw.tapeMax ∧
        t = { s with
              p := s.nextPtr
              tape := Memory.zeroRange s.tape s.len s.cfgStep
              len := s.len + s.cfgStep }.retire (s.ip + 1)) ∨
      (s.nextPtr = s.len ∧ s.hw.tapeMax < s.len + s.cfgStep ∧ t = s.raise .capacityExceeded s.ip) := by
  unfold execIncrPtr at h
  split at h
  · next hn =>
    split at h
    · next u hu =>
      obtain ⟨hle, rfl⟩ := growTape_eq_some.1 hu
      cases h
      exact .inr (.inl ⟨hn, hle, rfl⟩)
    · next hu => cases h; exact .inr (.inr ⟨hn, growTape_eq_none.1 hu, rfl⟩)
  · next hn => cases h; exact .inl ⟨hn, rfl⟩

theorem execDecrPtr_next {s t : State} (h : execDecrPtr s = .next t) :
    (s.cfgStrict = true ∧ t = { s with p := s.prevPtr }.retire (s.ip + 1)) ∨
      (s.cfgStrict = false ∧ t = { s with p := s.p - 1 }.retire (s.ip + 1)) := by
  unfold execDecrPtr at h
  split at h
  · next hs => cases h; exact .inl ⟨hs, rfl⟩
  · next hs =>
    refine .inr ⟨by simpa using hs, ?_⟩
    split at h
    · cases h; rfl
    · next hp =>
      cases h
      have : s.p - 1 = s.p := by omega
      rw [this]

theorem execIncrVal_next {s t : State} :
    execIncrVal s = .next t ↔
      (s.p < s.len ∧ t = (s.setCell (s.cell s.p + 1)).retire (s.ip + 1)) ∨
        (¬ s.p < s.len ∧ s.cfgStrict = true ∧ t = s.raise .dataIndexOutOfBounds s.ip) := by
  simp only [execIncrVal, accessCell_next, next_eq_next_iff]

theorem execDecrVal_next {s t : State} :
    execDecrVal s = .next t ↔
      (s.p < s.len ∧ t = (s.setCell (s.cell s.p - 1)).retire (s.ip + 1)) ∨
        (¬ s.p < s.len ∧ s.cfgStrict = true ∧ t = s.raise .dataIndexOutOfBounds s.ip) := by
  simp only [execDecrVal, accessCell_next, next_eq_next_iff]

theorem execWrite_next {s t : State} :
    execWrite s = .next t ↔
      (s.p < s.len ∧ t = emit (s.cell s.p) s) ∨
        (¬ s.p < s.len ∧ s.cfgStrict = true ∧ t = s.raise .dataIndexOutOfBounds s.ip) := by
  simp only [execWrite, accessCell_next, next_eq_next_iff]

theorem execRead_next {s t : State} :
    execRead s = .next t ↔
      (s.p < s.len ∧ t = inputByte s) ∨
        (¬ s.p < s.len ∧ s.cfgStrict = true ∧ t = s.raise .dataIndexOutOfBounds s.ip) := by
  simp only [execRead, accessCell_next, next_eq_next_iff]

theorem execLoopStart_next {s t : State} :
    execLoopStart s = .next t ↔
      (s.p < s.len ∧ t = if s.cell s.p = 0 then skipLoop s else enterLoop s) ∨
        (¬ s.p < s.len ∧ s.cfgStrict = true ∧ t = s.raise .dataIndexOutOfBounds s.ip) := by
  simp only [execLoopStart, accessCell_next, next_eq_next_iff, cellIsZero, beq_iff_eq]

/-- `Emit` (R34): delivered, or held with nothing but the wait changed. -/
theorem emit_cases (v : Byte) (s : State) :
    (s.outReady = true ∧ emit v s = s.acceptOut (s.offered v)) ∨
      (s.outReady = false ∧ emit v s = s.holdOut (s.offered v)) := by
  unfold emit
  cases h : s.outReady <;> simp

/-- `Input()` (R33): an answer is taken, oldest first, or the engine holds. -/
theorem inputByte_cases (s : State) :
    (s.inAnswers = [] ∧ inputByte s = s.holdIn) ∨
      ∃ a rest, s.inAnswers = a :: rest ∧ inputByte s = s.takeAnswer a rest := by
  unfold inputByte
  cases h : s.inAnswers with
  | nil => simp
  | cons a rest => simp

theorem skipLoop_cases (s : State) :
    (∃ m, skipScan s s.ip = some m ∧ skipLoop s = s.retire (m + 1)) ∨
      (skipScan s s.ip = none ∧ skipLoop s = s.raise .unterminatedLoop s.ip) := by
  unfold skipLoop
  cases h : skipScan s s.ip <;> simp

theorem enterLoop_cases (s : State) :
    (s.depth ≠ s.cap ∧ enterLoop s = { s with loops := s.ip :: s.loops }.retire (s.ip + 1)) ∨
      (s.depth = s.cap ∧ s.cap + s.cfgStep ≤ s.hw.lstackMax ∧
        enterLoop s = { s with cap := s.cap + s.cfgStep, loops := s.ip :: s.loops }.retire (s.ip + 1)) ∨
      (s.depth = s.cap ∧ s.hw.lstackMax < s.cap + s.cfgStep ∧ enterLoop s = s.raise .capacityExceeded s.ip) := by
  unfold enterLoop
  cases h : pushLoop s.ip s with
  | none => obtain ⟨h1, h2⟩ := pushLoop_eq_none.1 h; exact .inr (.inr ⟨h1, h2, rfl⟩)
  | some u =>
    obtain ⟨h1, rfl⟩ | ⟨h1, h2, rfl⟩ := pushLoop_eq_some.1 h
    · exact .inl ⟨h1, rfl⟩
    · exact .inr (.inl ⟨h1, h2, rfl⟩)

theorem execLoopEnd_next {s t : State} (h : execLoopEnd s = .next t) :
    (∃ v rest, s.loops = v :: rest ∧ t = { s with loops := rest }.retire v) ∨
      (s.loops = [] ∧ s.cfgStrict = true ∧ t = s.raise .unexpectedLoopEnd s.ip) ∨
      (s.loops = [] ∧ s.cfgStrict = false ∧ t = s.retire (s.ip + 1)) := by
  unfold execLoopEnd at h
  split at h
  · next hl =>
    split at h
    · next hs => cases h; exact .inr (.inl ⟨hl, hs, rfl⟩)
    · next hs => cases h; exact .inr (.inr ⟨hl, by simpa using hs, rfl⟩)
  · next v rest hl => cases h; exact .inl ⟨v, rest, hl, rfl⟩

/-! ### What any instruction can do -/

/-- Everything one instruction can do, by its next state. -/
inductive ExecCase : Instr → State → State → Prop
  /-- R56: a strict cell access outside the tape. -/
  | outOfBounds {i s} (hi : i.opClass ∈ [.incrVal, .decrVal, .write, .read, .loopStart]) (hp : ¬ s.p < s.len)
      (hs : s.cfgStrict = true) : ExecCase i s (s.raise .dataIndexOutOfBounds s.ip)
  | move {s} (hn : s.nextPtr ≠ s.len) : ExecCase .incrPtr s ({ s with p := s.nextPtr }.retire (s.ip + 1))
  | grow {s} (hn : s.nextPtr = s.len) (hm : s.len + s.cfgStep ≤ s.hw.tapeMax) :
      ExecCase .incrPtr s ({ s with
        p := s.nextPtr
        tape := Memory.zeroRange s.tape s.len s.cfgStep
        len := s.len + s.cfgStep }.retire (s.ip + 1))
  | tapeFull {s} (hn : s.nextPtr = s.len) (hm : s.hw.tapeMax < s.len + s.cfgStep) :
      ExecCase .incrPtr s (s.raise .capacityExceeded s.ip)
  | backStrict {s} (hs : s.cfgStrict = true) : ExecCase .decrPtr s ({ s with p := s.prevPtr }.retire (s.ip + 1))
  | backPermissive {s} (hs : s.cfgStrict = false) :
      ExecCase .decrPtr s ({ s with p := s.p - 1 }.retire (s.ip + 1))
  | incrVal {s} (hp : s.p < s.len) : ExecCase .incrVal s ((s.setCell (s.cell s.p + 1)).retire (s.ip + 1))
  | decrVal {s} (hp : s.p < s.len) : ExecCase .decrVal s ((s.setCell (s.cell s.p - 1)).retire (s.ip + 1))
  | writeOut {s} (hp : s.p < s.len) (hr : s.outReady = true) :
      ExecCase .write s (s.acceptOut (s.offered (s.cell s.p)))
  | writeHeld {s} (hp : s.p < s.len) (hr : s.outReady = false) :
      ExecCase .write s (s.holdOut (s.offered (s.cell s.p)))
  | readHeld {s} (hp : s.p < s.len) (ha : s.inAnswers = []) : ExecCase .read s s.holdIn
  | readIn {s a rest} (hp : s.p < s.len) (ha : s.inAnswers = a :: rest) :
      ExecCase .read s (s.takeAnswer a rest)
  | skip {s m} (hp : s.p < s.len) (hz : s.cell s.p = 0) (hm : skipScan s s.ip = some m) :
      ExecCase .loopStart s (s.retire (m + 1))
  | unterminated {s} (hp : s.p < s.len) (hz : s.cell s.p = 0) (hm : skipScan s s.ip = none) :
      ExecCase .loopStart s (s.raise .unterminatedLoop s.ip)
  | push {s} (hp : s.p < s.len) (hz : s.cell s.p ≠ 0) (hd : s.depth ≠ s.cap) :
      ExecCase .loopStart s ({ s with loops := s.ip :: s.loops }.retire (s.ip + 1))
  | pushGrow {s} (hp : s.p < s.len) (hz : s.cell s.p ≠ 0) (hd : s.depth = s.cap)
      (hm : s.cap + s.cfgStep ≤ s.hw.lstackMax) :
      ExecCase .loopStart s ({ s with cap := s.cap + s.cfgStep, loops := s.ip :: s.loops }.retire (s.ip + 1))
  | stackFull {s} (hp : s.p < s.len) (hz : s.cell s.p ≠ 0) (hd : s.depth = s.cap)
      (hm : s.hw.lstackMax < s.cap + s.cfgStep) : ExecCase .loopStart s (s.raise .capacityExceeded s.ip)
  | pop {s v rest} (hl : s.loops = v :: rest) : ExecCase .loopEnd s ({ s with loops := rest }.retire v)
  | endUnexpected {s} (hl : s.loops = []) (hs : s.cfgStrict = true) :
      ExecCase .loopEnd s (s.raise .unexpectedLoopEnd s.ip)
  | endIgnored {s} (hl : s.loops = []) (hs : s.cfgStrict = false) : ExecCase .loopEnd s (s.retire (s.ip + 1))
  | inert {i s} (hi : i.opClass = .inert) : ExecCase i s (s.retire (s.ip + 1))

/-- Every next state of an instruction is one of the cases. -/
theorem exec_next_cases {i : Instr} {s t : State} (h : exec i s = .next t) : ExecCase i s t := by
  cases i with
  | incrPtr =>
    obtain ⟨h1, rfl⟩ | ⟨h1, h2, rfl⟩ | ⟨h1, h2, rfl⟩ := execIncrPtr_next h
    · exact .move h1
    · exact .grow h1 h2
    · exact .tapeFull h1 h2
  | decrPtr =>
    obtain ⟨h1, rfl⟩ | ⟨h1, rfl⟩ := execDecrPtr_next h
    · exact .backStrict h1
    · exact .backPermissive h1
  | incrVal =>
    obtain ⟨h1, rfl⟩ | ⟨h1, h2, rfl⟩ := execIncrVal_next.1 h
    · exact .incrVal h1
    · exact .outOfBounds (by decide) h1 h2
  | decrVal =>
    obtain ⟨h1, rfl⟩ | ⟨h1, h2, rfl⟩ := execDecrVal_next.1 h
    · exact .decrVal h1
    · exact .outOfBounds (by decide) h1 h2
  | write =>
    obtain ⟨h1, rfl⟩ | ⟨h1, h2, rfl⟩ := execWrite_next.1 h
    · obtain ⟨h2, h3⟩ | ⟨h2, h3⟩ := emit_cases (s.cell s.p) s
      · exact h3 ▸ .writeOut h1 h2
      · exact h3 ▸ .writeHeld h1 h2
    · exact .outOfBounds (by decide) h1 h2
  | read =>
    obtain ⟨h1, rfl⟩ | ⟨h1, h2, rfl⟩ := execRead_next.1 h
    · obtain ⟨h2, h3⟩ | ⟨a, rest, h2, h3⟩ := inputByte_cases s
      · exact h3 ▸ .readHeld h1 h2
      · exact h3 ▸ .readIn h1 h2
    · exact .outOfBounds (by decide) h1 h2
  | loopStart =>
    obtain ⟨h1, rfl⟩ | ⟨h1, h2, rfl⟩ := execLoopStart_next.1 h
    · by_cases h0 : s.cell s.p = 0
      · rw [if_pos h0]
        obtain ⟨m, h2, h3⟩ | ⟨h2, h3⟩ := skipLoop_cases s
        · exact h3 ▸ .skip h1 h0 h2
        · exact h3 ▸ .unterminated h1 h0 h2
      · rw [if_neg h0]
        obtain ⟨h2, h3⟩ | ⟨h2, h3, h4⟩ | ⟨h2, h3, h4⟩ := enterLoop_cases s
        · exact h3 ▸ .push h1 h0 h2
        · exact h4 ▸ .pushGrow h1 h0 h2 h3
        · exact h4 ▸ .stackFull h1 h0 h2 h3
    · exact .outOfBounds (by decide) h1 h2
  | loopEnd =>
    obtain ⟨v, rest, h1, rfl⟩ | ⟨h1, h2, rfl⟩ | ⟨h1, h2, rfl⟩ := execLoopEnd_next h
    · exact .pop h1
    · exact .endUnexpected h1 h2
    · exact .endIgnored h1 h2
  | inert8 | inert9 | inertA | inertB | inertC | inertD | inertE | inertF =>
    rw [← next_eq_next_iff.1 (show Host.Outcome.next t = .next (s.retire (s.ip + 1)) from h.symm)]
    exact .inert rfl

/-- The five instructions that access the current cell (R51) are `accessCell` with a next state inside. -/
theorem exec_accessing {i : Instr} (hi : i.opClass ∈ [.incrVal, .decrVal, .write, .read, .loopStart]) (s : State) :
    ∃ act : Byte → State, exec i s = accessCell s fun v => .next (act v) := by
  cases i with
  | incrVal => exact ⟨_, exec_incrVal s⟩
  | decrVal => exact ⟨_, exec_decrVal s⟩
  | write => exact ⟨_, exec_write s⟩
  | read => exact ⟨fun _ => inputByte s, exec_read s⟩
  | loopStart => exact ⟨_, exec_loopStart s⟩
  | incrPtr | decrPtr | loopEnd | inert8 | inert9 | inertA | inertB | inertC | inertD | inertE | inertF =>
    simp [Instr.opClass] at hi

/-- Every other instruction answers a next state in every state. -/
theorem exec_not_accessing {i : Instr} (hi : i.opClass ∉ [.incrVal, .decrVal, .write, .read, .loopStart]) (s : State) :
    ∃ t, exec i s = .next t := by
  cases i with
  | incrPtr =>
    change ∃ t, execIncrPtr s = .next t
    unfold execIncrPtr
    split
    · split <;> exact ⟨_, rfl⟩
    · exact ⟨_, rfl⟩
  | decrPtr =>
    change ∃ t, execDecrPtr s = .next t
    unfold execDecrPtr
    split
    · exact ⟨_, rfl⟩
    · split <;> exact ⟨_, rfl⟩
  | loopEnd =>
    change ∃ t, execLoopEnd s = .next t
    unfold execLoopEnd
    split
    · split <;> exact ⟨_, rfl⟩
    · exact ⟨_, rfl⟩
  | inert8 | inert9 | inertA | inertB | inertC | inertD | inertE | inertF => exact ⟨_, rfl⟩
  | incrVal | decrVal | write | read | loopStart => simp [Instr.opClass] at hi

/-- Every case is a next state: the case analysis is exact. -/
theorem exec_of_case {i : Instr} {s t : State} (c : ExecCase i s t) : exec i s = .next t := by
  cases c with
  | outOfBounds hi hp hs =>
    obtain ⟨act, e⟩ := exec_accessing hi s
    rw [e, accessCell_strict hp hs]
  | move hn =>
    change execIncrPtr s = _
    rw [execIncrPtr, if_neg hn]
  | grow hn hm =>
    change execIncrPtr s = _
    rw [execIncrPtr, if_pos hn, growTape_eq_some.2 ⟨hm, rfl⟩]
  | tapeFull hn hm =>
    change execIncrPtr s = _
    rw [execIncrPtr, if_pos hn, growTape_eq_none.2 hm]
  | backStrict hs =>
    change execDecrPtr s = _
    rw [execDecrPtr, if_pos hs]
  | backPermissive hs =>
    change execDecrPtr s = _
    rw [execDecrPtr, if_neg (by simp [hs])]
    split
    · rfl
    · next hp =>
      have : s.p - 1 = s.p := by omega
      rw [this]
  | incrVal hp => rw [exec_incrVal, accessCell_inBounds hp]
  | decrVal hp => rw [exec_decrVal, accessCell_inBounds hp]
  | writeOut hp hr => rw [exec_write, accessCell_inBounds hp, emit, if_pos hr]
  | writeHeld hp hr => rw [exec_write, accessCell_inBounds hp, emit, if_neg (by simp [hr])]
  | readHeld hp ha => rw [exec_read, accessCell_inBounds hp, inputByte, ha]
  | readIn hp ha => rw [exec_read, accessCell_inBounds hp, inputByte, ha]
  | skip hp hz hm => rw [exec_loopStart, accessCell_inBounds hp, cellIsZero, if_pos (by simpa using hz), skipLoop, hm]
  | unterminated hp hz hm =>
    rw [exec_loopStart, accessCell_inBounds hp, cellIsZero, if_pos (by simpa using hz), skipLoop, hm]
  | push hp hz hd =>
    rw [exec_loopStart, accessCell_inBounds hp, cellIsZero, if_neg (by simpa using hz), enterLoop,
      pushLoop_eq_some.2 (.inl ⟨hd, rfl⟩)]
  | pushGrow hp hz hd hm =>
    rw [exec_loopStart, accessCell_inBounds hp, cellIsZero, if_neg (by simpa using hz), enterLoop,
      pushLoop_eq_some.2 (.inr ⟨hd, hm, rfl⟩)]
  | stackFull hp hz hd hm =>
    rw [exec_loopStart, accessCell_inBounds hp, cellIsZero, if_neg (by simpa using hz), enterLoop,
      pushLoop_eq_none.2 ⟨hd, hm⟩]
  | pop hl =>
    change execLoopEnd s = _
    rw [execLoopEnd, hl]
  | endUnexpected hl hs =>
    change execLoopEnd s = _
    rw [execLoopEnd, hl]
    exact if_pos hs
  | endIgnored hl hs =>
    change execLoopEnd s = _
    rw [execLoopEnd, hl]
    exact if_neg (by simp [hs])
  | inert hi => cases i <;> first | rfl | cases hi

/-! ### What a step can do -/

/-- Everything one step can do: rest outside a run, end the run at L, or run the instruction at `ip`. -/
theorem step_next_cases {s t : State} (h : step s = .next t) :
    (s.status.run ≠ .running ∧ t = s) ∨
      (s.status.run = .running ∧ s.ip = s.progLen ∧ t = s.finish) ∨
      (s.status.run = .running ∧ s.ip ≠ s.progLen ∧ ∃ i, fetchInstr s = some i ∧ exec i s = .next t) := by
  unfold step at h
  split at h
  · next hr =>
    split at h
    · next he => cases h; exact .inr (.inl ⟨hr, he, rfl⟩)
    · next he =>
      split at h
      · next i hi => exact .inr (.inr ⟨hr, he, i, hi, h⟩)
      · cases h
  all_goals
    next hr => cases h; exact .inl ⟨by simp [hr], rfl⟩

theorem step_of_instr {s : State} {i : Instr} (hr : s.status.run = .running) (hi : fetchInstr s = some i) :
    step s = exec i s := by
  have hlt := lt_of_opAt hi
  have : s.ip ≠ s.progLen := by simp only [State.progLen]; omega
  simp only [step, hr, if_neg this, hi]

theorem step_of_end {s : State} (hr : s.status.run = .running) (he : s.ip = s.progLen) :
    step s = .next s.finish := by
  simp only [step, hr, if_pos he]

theorem step_of_not_running {s : State} (hr : s.status.run ≠ .running) : step s = .next s := by
  unfold step
  split
  · contradiction
  all_goals rfl

end Sys2Proof.Machine
end

