-- ==== Sys2Proof/Laws/PerInstr.lean ====
section
/-! SUPPORT. Statements about every instruction as syntax, one lemma per constructor. -/

namespace Sys2Proof.Laws

open Sys2Proof

/-- Under the default OPMAP the nibble of an instruction decodes to it (30_encoding.md R83). -/
def DefaultMapRoundTrip.Statement (i : Instr) : Prop :=
  i.wf OpMap.default ∧ decodeNibble OpMap.default (encode OpMap.default i) = i

theorem DefaultMapRoundTrip.incrPtr : DefaultMapRoundTrip.Statement .incrPtr := by
  unfold DefaultMapRoundTrip.Statement; decide

theorem DefaultMapRoundTrip.decrPtr : DefaultMapRoundTrip.Statement .decrPtr := by
  unfold DefaultMapRoundTrip.Statement; decide

theorem DefaultMapRoundTrip.incrVal : DefaultMapRoundTrip.Statement .incrVal := by
  unfold DefaultMapRoundTrip.Statement; decide

theorem DefaultMapRoundTrip.decrVal : DefaultMapRoundTrip.Statement .decrVal := by
  unfold DefaultMapRoundTrip.Statement; decide

theorem DefaultMapRoundTrip.write : DefaultMapRoundTrip.Statement .write := by
  unfold DefaultMapRoundTrip.Statement; decide

theorem DefaultMapRoundTrip.read : DefaultMapRoundTrip.Statement .read := by
  unfold DefaultMapRoundTrip.Statement; decide

theorem DefaultMapRoundTrip.loopStart : DefaultMapRoundTrip.Statement .loopStart := by
  unfold DefaultMapRoundTrip.Statement; decide

theorem DefaultMapRoundTrip.loopEnd : DefaultMapRoundTrip.Statement .loopEnd := by
  unfold DefaultMapRoundTrip.Statement; decide

theorem DefaultMapRoundTrip.inert8 : DefaultMapRoundTrip.Statement .inert8 := by
  unfold DefaultMapRoundTrip.Statement; decide

theorem DefaultMapRoundTrip.inert9 : DefaultMapRoundTrip.Statement .inert9 := by
  unfold DefaultMapRoundTrip.Statement; decide

theorem DefaultMapRoundTrip.inertA : DefaultMapRoundTrip.Statement .inertA := by
  unfold DefaultMapRoundTrip.Statement; decide

theorem DefaultMapRoundTrip.inertB : DefaultMapRoundTrip.Statement .inertB := by
  unfold DefaultMapRoundTrip.Statement; decide

theorem DefaultMapRoundTrip.inertC : DefaultMapRoundTrip.Statement .inertC := by
  unfold DefaultMapRoundTrip.Statement; decide

theorem DefaultMapRoundTrip.inertD : DefaultMapRoundTrip.Statement .inertD := by
  unfold DefaultMapRoundTrip.Statement; decide

theorem DefaultMapRoundTrip.inertE : DefaultMapRoundTrip.Statement .inertE := by
  unfold DefaultMapRoundTrip.Statement; decide

theorem DefaultMapRoundTrip.inertF : DefaultMapRoundTrip.Statement .inertF := by
  unfold DefaultMapRoundTrip.Statement; decide

end Sys2Proof.Laws
end

