-- ==== Sys2Proof/Tests/Slice0.lean ====
section
/-! SUPPORT. Small tests of the model against the spec's own tables and vectors (95_test_vectors.md), the smoke tests
of WellFormed, and for each statement with hypotheses a concrete case that meets them. -/

namespace Sys2Proof.Tests

open Sys2Proof Sys2Proof.Machine

/-! ### States to test on -/

/-- The parameters of the vectors of 95_test_vectors.md (`W = 16`), with EOF_ZERO. -/
def hw : Params where
  opmap := OpMap.default
  eofPolicy := .eofZero
  ptrWidth := 16
  tapeMax := 65535
  lstackMax := 65535
  progMax := 32767
  ipWidth := 16
  stepWidth := 16

/-- A run just started on `bytes` with STEP 1, permissive. -/
def run (bytes : List Byte) : State :=
  { State.reset with
    hw := hw
    status := { Status.reset with run := .running }
    cfgStep := 1
    stepIn := 1
    len := 1
    cap := 1
    prog := bytes }

/-- The same run with a strict policy. -/
def strictRun (bytes : List Byte) : State :=
  { run bytes with cfgStrict := true, status := { (run bytes).status with policy := true } }

/-- The strict run after DECR_PTR at 0 (the start state of V9, V15, V16, V20, V40). -/
def outside : State := { strictRun [0x1F] with p := 0xFFFF }

/-- A check on the next state of an answer. -/
def nextIs (r : Result) (f : State → Bool) : Bool :=
  match r with
  | .next t => f t
  | .fault _ => false
  | .refused _ => false

/-- The answer is a next state in ERROR with this kind and this ERR_IP. -/
def endsIn (r : Result) (k : ErrKind) (at_ : Nat) : Bool :=
  nextIs r fun t => t.status.run == .error && t.status.err == some k && t.errIp == at_

/-! ### WellFormed: each check refuses an ill-formed term -/

/-- An OPMAP in which two values are READ and none is WRITE. -/
def badMap : OpMap := OpMap.default.set 4 .read

theorem test_wf_map_duplicate : ¬ badMap.wf := by decide
theorem test_wf_instr_without_encoding : ¬ Instr.wf badMap .write := by decide
theorem test_wf_default_map : OpMap.default.wf := by decide
theorem test_wf_params : hw.wf := by decide
theorem test_wf_params_bad_map : ¬ { hw with opmap := badMap }.wf := by decide
theorem test_wf_params_tape_too_large : ¬ { hw with tapeMax := 65536 }.wf := by decide
theorem test_wf_params_program_too_large : ¬ { hw with progMax := 32768 }.wf := by decide
theorem test_wf_step_zero : ¬ hw.stepOk 0 := by decide
theorem test_wf_step_too_wide : ¬ hw.stepOk 65536 := by decide
theorem test_wf_step_above_tape : ¬ { hw with tapeMax := 7 }.stepOk 8 := by decide
theorem test_wf_program_does_not_fit : ¬ { hw with progMax := 1 }.programFits [0, 0] := by decide

/-! ### Decoding: words from 30_encoding.md R83 and opcode_table.json -/

theorem test_decode_pointer :
    decodeTableWord 8 0b0000 = some .incrPtr ∧ decodeTableWord 8 0b0001 = some .decrPtr := by decide
theorem test_decode_cell :
    decodeTableWord 8 0b0010 = some .incrVal ∧ decodeTableWord 8 0b0011 = some .decrVal := by decide
theorem test_decode_io :
    decodeTableWord 8 0b0100 = some .write ∧ decodeTableWord 8 0b0101 = some .read := by decide
theorem test_decode_loop :
    decodeTableWord 8 0b0110 = some .loopStart ∧ decodeTableWord 8 0b0111 = some .loopEnd := by decide
theorem test_decode_inert :
    decodeTableWord 8 0b1000 = some .inert8 ∧ decodeTableWord 8 0b1001 = some .inert9 ∧
    decodeTableWord 8 0b1010 = some .inertA ∧ decodeTableWord 8 0b1011 = some .inertB ∧
    decodeTableWord 8 0b1100 = some .inertC ∧ decodeTableWord 8 0b1101 = some .inertD ∧
    decodeTableWord 8 0b1110 = some .inertE ∧ decodeTableWord 8 0b1111 = some .inertF := by decide

/-- S1: the expanded programs of the source's decoder formula. -/
theorem test_expand :
    expandProgram [0xA5] = [0xA, 0x5] ∧ expandProgram [0x23, 0x07] = [2, 3, 0, 7] ∧
    expandProgram [0xFF, 0x00, 0x6F] = [0xF, 0xF, 0, 0, 6, 0xF] := by decide
/-- S1: `pack(0x2, 0x3) = 0x23`, `pack(0x0, 0x7) = 0x07`. -/
theorem test_pack : packNibbles 0x2 0x3 = 0x23 ∧ packNibbles 0x0 0x7 = 0x07 := by decide
/-- Decoder table: byte 0xF1 holds an inert value and then DECR_PTR. -/
theorem test_high_nibble_first :
    opAt OpMap.default [0xF1] 0 = some .inertF ∧ opAt OpMap.default [0xF1] 1 = some .decrPtr ∧
    opAt OpMap.default [0xF1] 2 = none := by decide
/-- P5 and P6: assembled text, the second with the fill of an odd list. -/
theorem test_assemble :
    assembleLines OpMap.default [[','], ['.']] = some [0x54] ∧
    assembleLines OpMap.default [['['], ['['], [']'], ['+'], [']'], ['+'], ['.']] = some [0x66, 0x72, 0x72, 0x4F] := by
  decide
theorem test_assembly_inert :
    parseLine OpMap.default "INERT 9".toList = some .inert9 ∧ parseLine OpMap.default "HALT".toList = none := by
  decide

/-! ### One step of each instruction, from the vectors V1 to V44 -/

/-- V1. -/
theorem test_incr_ptr_grows :
    nextIs (exec .incrPtr { run [0x00] with tape := [(0, 5)] })
      (fun t => t.p == 1 && t.len == 2 && t.cell 0 == 5 && t.cell 1 == 0) = true := by decide
/-- V4. -/
theorem test_incr_ptr_capacity :
    endsIn (exec .incrPtr { run [0x00] with hw := { hw with tapeMax := 1 } }) .capacityExceeded 0 = true := by decide
/-- V6. -/
theorem test_decr_ptr_strict_wraps :
    nextIs (exec .decrPtr (strictRun [0x1F])) (fun t => t.p == 0xFFFF && t.ip == 1) = true := by decide
/-- V7. -/
theorem test_decr_ptr_permissive_stays :
    nextIs (exec .decrPtr (run [0x1F])) (fun t => t.p == 0 && t.ip == 1) = true := by decide
/-- V12. -/
theorem test_incr_val_wraps :
    nextIs (exec .incrVal { run [0x2F] with tape := [(0, 255)] }) (fun t => t.tape == []) = true := by decide
/-- V15. -/
theorem test_incr_val_outside : endsIn (exec .incrVal outside) .dataIndexOutOfBounds 0 = true := by decide
/-- V13. -/
theorem test_decr_val_wraps :
    nextIs (exec .decrVal (run [0x3F])) (fun t => t.tape == [(0, 255)]) = true := by decide
/-- V16. -/
theorem test_decr_val_outside : endsIn (exec .decrVal outside) .dataIndexOutOfBounds 0 = true := by decide
/-- V18. -/
theorem test_write_emits :
    nextIs (exec .write { run [0x4F] with tape := [(0, 0x41)] })
      (fun t => t.output == [0x41] && t.ip == 1 && t.tape == [(0, 0x41)]) = true := by decide
/-- V20. -/
theorem test_write_outside :
    nextIs (exec .write outside) (fun t => t.status.err == some .dataIndexOutOfBounds && t.output == []) = true := by
  decide
/-- V21. -/
theorem test_read_byte :
    nextIs (exec .read { run [0x5F] with tape := [(0, 7)], inAnswers := [.byte 0x41] })
      (fun t => t.tape == [(0, 0x41)] && t.inAnswers == []) = true := by decide
/-- V22, V23. -/
theorem test_read_eof :
    nextIs (exec .read { run [0x5F] with tape := [(0, 7)], inAnswers := [.eof] }) (fun t => t.tape == []) = true ∧
    nextIs (exec .read { run [0x5F] with
        hw := { hw with eofPolicy := .eofUnchanged }, tape := [(0, 7)], inAnswers := [.eof] })
      (fun t => t.tape == [(0, 7)]) = true := by decide
/-- V28. -/
theorem test_loop_start_pushes :
    nextIs (exec .loopStart { run [0xFF, 0xFF, 0xF6] with ip := 5, tape := [(0, 3)] })
      (fun t => t.loops == [5] && t.ip == 6) = true := by decide
/-- P6: the skip from 0 over nested loops goes to position 5. -/
theorem test_loop_start_skips :
    nextIs (step (run [0x66, 0x72, 0x72, 0x4F])) (fun t => t.ip == 5 && t.loops == []) = true := by decide
/-- V30. -/
theorem test_loop_end_jumps :
    nextIs (exec .loopEnd { run [] with ip := 9, loops := [5] }) (fun t => t.ip == 5 && t.loops == []) = true := by
  decide
/-- V31, V32. -/
theorem test_loop_end_empty :
    nextIs (exec .loopEnd { run [] with ip := 4 }) (fun t => t.ip == 5) = true ∧
    endsIn (exec .loopEnd (strictRun [0x7F])) .unexpectedLoopEnd 0 = true := by decide
/-- V40, for the eight values. -/
theorem test_inert_outside :
    [Instr.inert8, .inert9, .inertA, .inertB, .inertC, .inertD, .inertE, .inertF].all
      (fun i => nextIs (exec i outside) (fun t => t.ip == 1 && t.p == 0xFFFF && t.status.run == .running)) = true := by
  decide
/-- V39. -/
theorem test_inert_step :
    nextIs (step { run [0x00, 0x0F] with ip := 3 }) (fun t => t.ip == 4 && t.p == 0) = true := by decide

/-- V42, V43: the checks of run start. -/
theorem test_start_checks :
    endsIn (hostAct .start { State.reset with hw := hw }) .invalidMemoryStepSize 0 = true ∧
    endsIn (hostAct .start { State.reset with hw := { hw with progMax := 1 }, stepIn := 1, prog := [0x68, 0x97] })
      .programTooLarge 0 = true := by decide
/-- V44. -/
theorem test_empty_program_ends :
    nextIs (hostAct .start { State.reset with hw := hw, stepIn := 1 })
      (fun t => nextIs (step t) fun u => u.status.run == .done && u.ip == 0 && u.output == []) = true := by decide
/-- The STATUS fields of 10_state.md R31, at ERROR with CapacityExceeded in strict mode. -/
theorem test_status_word :
    Status.word ⟨.error, false, false, some .capacityExceeded, true⟩ = 0b1_101_0_0_11 ∧
    Status.word ⟨.running, true, false, none, false⟩ = 0b0_000_0_1_01 := by decide
theorem test_fetch_word_runs_from_reset :
    nextIs (step (State.reset.withFetchWord 8 0b0010)) (fun t => t.tape == [(0, 1)]) = true := by decide

/-! ### Witnesses: a concrete case that meets the hypotheses of each statement, each clause of it -/

/-- A second legal OPMAP: the default one reversed. -/
def reversedMap : OpMap :=
  #v[.inertF, .inertE, .inertD, .inertC, .inertB, .inertA, .inert9, .inert8,
     .loopEnd, .loopStart, .read, .write, .decrVal, .incrVal, .decrPtr, .incrPtr]

/-- DecodeAndEncodeAgree, AssembledProgramDecodesToSource, AssemblyLineNamesItsInstruction. -/
theorem witness_legal_maps : OpMap.default.wf ∧ reversedMap.wf ∧ reversedMap ≠ OpMap.default := by decide

/-- ProgramByteHoldsTwoInstructions: the last byte and the last position. -/
theorem witness_program_byte : ([0x23, 0x07] : List Byte)[1]? = some 0x07 ∧ 3 < 2 * ([0x23, 0x07] : List Byte).length := by
  decide

/-- PowerOnMeetsInvariant, ReachableStatesAreSound. -/
theorem witness_params : hw.wf ∧ hw.opmap.wf := by decide

theorem witness_reachable : Reachable hw (State.powerOn hw) := ⟨[], rfl⟩

/-- The state after power-on with STEP 1 and a program of one byte loaded. -/
def loaded : State := { State.powerOn hw with stepIn := 1, prog := [0x54] }

/-- StartInitialisesRun, at the smallest STEP and at a program that fills the store. -/
theorem witness_start :
    let s := { loaded with hw := { hw with progMax := 1 } }
    s.status.run ≠ .running ∧ 1 ≤ s.stepIn ∧ s.prog.length ≤ s.hw.progMax := by decide

/-- StartChecksStepThenSize: STEP 0, a program one byte too large, and both at once. -/
theorem witness_start_checks :
    let tooLarge := { loaded with hw := { hw with progMax := 0 } }
    let both := { tooLarge with stepIn := 0 }
    (State.powerOn hw).status.run ≠ .running ∧ (State.powerOn hw).stepIn = 0 ∧
    tooLarge.status.run ≠ .running ∧ tooLarge.stepIn ≠ 0 ∧ tooLarge.hw.progMax < tooLarge.prog.length ∧
    both.status.run ≠ .running ∧ both.stepIn = 0 ∧ both.hw.progMax < both.prog.length := by decide

/-- ConfigurationIsFixedDuringRun, RunMovesOnlyAlongItsTransitions, HostReachesOnlyChannelsAndStatus: an engine step
and each kind of host action during a run, and START outside one, that passes and that fails. -/
theorem witness_events :
    (run [0x54]).status.run = .running ∧
    (∃ t, onEvent .engine (run [0x2F]) = .next t) ∧ (∃ t, onEvent (.host (.load [])) (run [0x54]) = .next t) ∧
    (∃ t, onEvent (.host (.setStep 3)) (run [0x54]) = .next t) ∧
    (∃ t, onEvent (.host (.setStrict true)) (run [0x54]) = .next t) ∧
    (∃ t, onEvent (.host .start) (run [0x54]) = .next t) ∧
    (∃ t, onEvent (.host (.answer .eof)) (run [0x54]) = .next t) ∧
    (∃ t, onEvent (.host (.setOutReady false)) (run [0x54]) = .next t) ∧
    nextIs (onEvent (.host .start) loaded) (fun t => t.status.run == .running) = true ∧
    nextIs (onEvent (.host .start) (State.powerOn hw)) (fun t => t.status.run == .error) = true ∧
    nextIs (onEvent .engine (run [])) (fun t => t.status.run == .done) = true ∧
    nextIs (onEvent .engine (strictRun [0x7F])) (fun t => t.status.run == .error) = true :=
  ⟨rfl, ⟨_, rfl⟩, ⟨_, rfl⟩, ⟨_, rfl⟩, ⟨_, rfl⟩, ⟨_, rfl⟩, ⟨_, rfl⟩, ⟨_, rfl⟩, by decide, by decide, by decide, by decide⟩

/-- HostReachesOnlyChannelsAndStatus: another state with the same STATUS. -/
theorem witness_same_status : (run [0x54]).status = (run [0x00]).status ∧ run [0x54] ≠ run [0x00] := by decide

/-- NoStateCarriesIntoNextRun: a block after an ended run and a fresh one. -/
theorem witness_two_blocks :
    let s := loaded
    let t := { loaded with p := 7, tape := [(7, 3)], len := 8, loops := [2], cap := 4, output := [1],
                           status := { Status.reset with run := .done } }
    s ≠ t ∧ s.status.run ≠ .running ∧ t.status.run ≠ .running ∧ t.hw = s.hw ∧ t.prog = s.prog ∧
      t.stepIn = s.stepIn ∧ t.strictIn = s.strictIn ∧ t.inAnswers = s.inAnswers ∧ t.outReady = s.outReady ∧
      1 ≤ s.stepIn ∧ s.prog.length ≤ s.hw.progMax := by decide

/-- StepRunsDecodedInstruction: the end of the program, and its last position. -/
theorem witness_step :
    let last := { run [0x54] with ip := 1 }
    let ended := { run [0x54] with ip := 2 }
    last.status.run = .running ∧ progNibble last.prog last.ip = some 4 ∧
    ended.status.run = .running ∧ ended.ip = 2 * ended.prog.length := by decide

/-- PlacedWordRunsNext. -/
theorem witness_placed_word : hw.opmap.wf ∧ decodeTableWord 8 0b0111 = some .loopEnd := by decide

/-- IncrPtrMovesAndGrowsTape: its three clauses, the second and the third where TAPE_MAX is just enough and just
not enough, and CapacityExceededExactlyWhen's first case. -/
theorem witness_incr_ptr :
    let room := { run [0x00] with len := 2 }
    let fits := { run [0x00] with hw := { hw with tapeMax := 2 } }
    let full := { run [0x00] with hw := { hw with tapeMax := 1 } }
    (room.p + 1) % 2 ^ room.hw.ptrWidth ≠ room.len ∧ (outside.p + 1) % 2 ^ outside.hw.ptrWidth ≠ outside.len ∧
    (fits.p + 1) % 2 ^ fits.hw.ptrWidth = fits.len ∧ fits.len + fits.cfgStep ≤ fits.hw.tapeMax ∧
    (full.p + 1) % 2 ^ full.hw.ptrWidth = full.len ∧ full.hw.tapeMax < full.len + full.cfgStep := by decide

/-- DecrPtrMovesByPolicy, PointerMovesInvert: `p` at both ends of its range. -/
theorem witness_ptr_range : (run [0x1F]).p < 2 ^ hw.ptrWidth ∧ outside.p < 2 ^ hw.ptrWidth ∧ 0 < hw.ptrWidth := by
  decide

/-- The cell instructions' two clauses (IncrVal…, DecrVal…, WriteEmits…, ReadFills…, LoopStart…, CellArithmeticLaws):
the last cell of the tape, and one past it in strict mode. -/
theorem witness_cell_access :
    Memory.wf (run [0x2F]).tape ∧ (run [0x2F]).p < (run [0x2F]).len ∧
    let past := { strictRun [0x2F] with p := 1 }
    Memory.wf past.tape ∧ past.len ≤ past.p ∧ past.cfgStrict = true := by decide

/-- WriteEmitsCurrentCell: a state at FETCH, and one held with the current cell on offer. -/
theorem witness_write :
    (∀ v, (run [0x4F]).fsm = .waitOut v → v = (run [0x4F]).cell (run [0x4F]).p) ∧
    (∀ v, { run [0x4F] with tape := [(0, 9)], fsm := .waitOut 9 }.fsm = .waitOut v →
      v = { run [0x4F] with tape := [(0, 9)] }.cell 0) ∧
    (run [0x4F]).outReady = true ∧ { run [0x4F] with outReady := false }.outReady = false := by
  refine ⟨fun v h => (by cases h), fun v h => ?_, by decide, by decide⟩
  cases h; decide

/-- ReadFillsCurrentCell: an answer of each kind under each EOF_POLICY, and none. -/
theorem witness_read :
    { run [0x5F] with inAnswers := [.byte 3] }.inAnswers = .byte 3 :: [] ∧
    { run [0x5F] with inAnswers := [.eof] }.inAnswers = .eof :: [] ∧ (run [0x5F]).inAnswers = [] ∧
    hw.eofPolicy = .eofZero ∧ { hw with eofPolicy := .eofUnchanged }.eofPolicy = .eofUnchanged := by decide

/-- LoopStartSkipsOrEnters, UnterminatedLoopExactlyWhen, ZeroCellSkipsWholeLoop, SkipScanFindsMatchingLoopEnd: a
match and no match; a push with room, one that grows the stack to LSTACK_MAX, and one that cannot. -/
theorem witness_loop_start :
    let skips := run [0x67]
    let open_ := run [0x6F]
    let room := { run [0x67] with tape := [(0, 1)] }
    let fits := { run [0x66] with
      hw := { hw with lstackMax := 2 }, ip := 1, loops := [0], tape := [(0, 1)] }
    let full := { fits with hw := { hw with lstackMax := 1 } }
    (skips.status.run = .running ∧ fetchInstr skips = some .loopStart ∧ skips.p < skips.len ∧
      skips.cell skips.p = 0 ∧ skipScan skips skips.ip = some 1) ∧
    (fetchInstr open_ = some .loopStart ∧ open_.p < open_.len ∧ open_.cell open_.p = 0 ∧
      skipScan open_ open_.ip = none) ∧
    (room.p < room.len ∧ room.cell room.p ≠ 0 ∧ room.depth ≠ room.cap) ∧
    (fits.p < fits.len ∧ fits.cell fits.p ≠ 0 ∧ fits.depth = fits.cap ∧ fits.cap + fits.cfgStep ≤ fits.hw.lstackMax) ∧
    (full.p < full.len ∧ full.cell full.p ≠ 0 ∧ full.depth = full.cap ∧
      full.hw.lstackMax < full.cap + full.cfgStep) := by decide

theorem witness_matches_loop : MatchesLoop OpMap.default [0x67] 0 1 ∧ ¬ ∃ m, MatchesLoop OpMap.default [0x6F] 0 m := by
  refine ⟨⟨by decide, by decide, by decide, fun j h1 h2 => ?_⟩, ?_⟩
  · interval_cases j; decide
  · rintro ⟨m, h1, h2, -⟩
    have : m < 2 := lt_of_opAt h2
    interval_cases m; revert h2; decide

/-- LoopEndPopsAndJumps: a stack of one, and an empty one under each policy. -/
theorem witness_loop_end :
    { run [0x7F] with loops := [0] }.loops = 0 :: [] ∧ (strictRun [0x7F]).loops = [] ∧
    (strictRun [0x7F]).cfgStrict = true ∧ (run [0x7F]).loops = [] ∧ (run [0x7F]).cfgStrict = false := by decide

/-- InertOnlyAdvances: the eight instructions of the class. -/
theorem witness_inert :
    Instr.all.filter (fun i => i.opClass = .inert) =
      [.inert8, .inert9, .inertA, .inertB, .inertC, .inertD, .inertE, .inertF] ∧
    Instr.inert8 ∈ [Instr.inert8, .inert9, .inertA, .inertB, .inertC, .inertD, .inertE, .inertF] := by decide

/-- PermissiveAccessOutsideTapeFaults. -/
theorem witness_permissive_outside :
    { run [0x2F] with p := 1 }.len ≤ { run [0x2F] with p := 1 }.p ∧ (run [0x2F]).cfgStrict = false := by decide

/-- The frames (RegistersAnInstructionKeeps, TapeBytesAnInstructionKeeps, LoopStackFrame, ChannelFrame) and the
error statements: every instruction has a next state, in a run without an error. -/
theorem witness_next (i : Instr) : ∃ t, exec i (run [0x67]) = .next t := by cases i <;> exact ⟨_, rfl⟩

theorem witness_frame_hypotheses :
    Memory.wf (run [0x67]).tape ∧ (run [0x67]).status.err = none ∧ (run [0x67]).status.run ≠ .error ∧
    (run [0x67]).status.run = .running := by decide

/-- TapeLengthChangesOnlyByGrowth. -/
theorem witness_growth : nextIs (step (run [0x00])) (fun t => t.len != (run [0x00]).len) = true := by decide

/-- ErrorRecordsAndChangesNothingElse and the four `…ExactlyWhen`: each kind raised by an instruction. -/
theorem witness_errors :
    endsIn (exec .read outside) .dataIndexOutOfBounds 0 = true ∧
    endsIn (exec .loopStart outside) .dataIndexOutOfBounds 0 = true ∧
    endsIn (exec .loopEnd (strictRun [0x7F])) .unexpectedLoopEnd 0 = true ∧
    endsIn (exec .loopStart (run [0x6F])) .unterminatedLoop 0 = true ∧
    endsIn (exec .incrPtr { run [0x00] with hw := { hw with tapeMax := 1 } }) .capacityExceeded 0 = true ∧
    endsIn (exec .loopStart { run [0x66] with
      hw := { hw with lstackMax := 1 }, ip := 1, loops := [0], tape := [(0, 1)] }) .capacityExceeded 1 = true := by
  decide

/-- EndedRunStaysFrozen: events with no START on an ended run. -/
theorem witness_ended :
    let s := { run [0x2F] with status := { Status.reset with run := .done } }
    Event.host .start ∉ [Event.engine, .host (.load []), .engine] ∧ s.status.run = .done ∧
    nextIs (onEvents [.engine, .host (.load []), .engine] s) (fun _ => true) = true := by decide

/-- IpAdvancesInThreeWays: a next state that goes on, for each of its cases, and one that ends. -/
theorem witness_ip :
    nextIs (exec .incrVal (run [0x2F])) (fun t => t.status.run == .running && t.fsm == .fetch) = true ∧
    nextIs (exec .loopStart (run [0x67])) (fun t => t.status.run == .running && t.fsm == .fetch) = true ∧
    nextIs (exec .loopStart { run [0x67] with tape := [(0, 1)] })
      (fun t => t.status.run == .running && t.fsm == .fetch) = true ∧
    nextIs (exec .loopEnd { run [0x67] with ip := 1, loops := [0] })
      (fun t => t.status.run == .running && t.fsm == .fetch) = true ∧
    nextIs (exec .loopEnd (run [0x7F])) (fun t => t.status.run == .running && t.fsm == .fetch) = true ∧
    nextIs (exec .loopEnd (strictRun [0x7F])) (fun t => t.status.run == .error) = true := by decide

/-- PolicyDifferencesAreExactlyThese: an instruction outside the three cases, and each of the cases. -/
theorem witness_policy :
    0 < hw.ptrWidth ∧ (run [0x2F]).p < 2 ^ hw.ptrWidth ∧
    ¬ (Instr.incrVal ∈ [Instr.incrVal, .decrVal, .write, .read, .loopStart] ∧ (run [0x2F]).len ≤ (run [0x2F]).p) ∧
    (Instr.decrPtr = .decrPtr ∧ (run [0x1F]).p = 0) ∧ outside.len ≤ outside.p ∧ (run [0x7F]).loops = [] := by decide

/-- PointerMovesInvert: up then down, and down then up, in each mode. -/
theorem witness_pointer_moves :
    nextIs (exec .incrPtr (run [0x01])) (fun t =>
      t.status.run == .running && nextIs (exec .decrPtr t) fun u => u.status.run == .running) = true ∧
    nextIs (exec .decrPtr (run [0x10])) (fun t =>
      t.status.run == .running && nextIs (exec .incrPtr t) fun u => u.status.run == .running) = true ∧
    nextIs (exec .decrPtr (strictRun [0x10])) (fun t =>
      t.status.run == .running && nextIs (exec .incrPtr t) fun u => u.status.run == .running) = true ∧
    (run [0x01]).p + 1 < 2 ^ hw.ptrWidth ∧ 1 < 2 ^ hw.ptrWidth := by decide

/-- HoldKeepsStateAndResumes: READ with no answer, WRITE with no acceptance. -/
theorem witness_hold :
    let s := { run [0x54] with outReady := false }
    s.p < s.len ∧ s.inAnswers = [] ∧ s.status.waitIn = false ∧ s.fsm = .fetch ∧ s.outReady = false ∧
    s.status.waitOut = false := by decide

/-- LaterAnswersDoNotMatter: a READ that is answered. -/
theorem witness_answered :
    nextIs (step { run [0x54] with inAnswers := [.byte 1] }) (fun t => t.fsm != .waitIn) = true := by decide

/-- StatusWordLayout: two equal words. -/
theorem witness_status_word : Status.reset.word = (run []).status.word - 1 ∧ Status.reset.word = Status.reset.word := by
  decide

/-- ExitCodeFollowsTerminalStatus: the two ends. -/
theorem witness_exit :
    { run [] with status := { Status.reset with run := .done } }.status.run = .done ∧
    nextIs (step (strictRun [0x7F])) (fun t => t.status.run == .error) = true := by decide

/-- A run just started meets the invariant (StepKeepsInvariant, HostActionKeepsInvariant, InvariantRulesOutFault, and
the other statements that assume it). -/
theorem witness_run_inv (bytes : List Byte) (h : bytes.length ≤ 32767) : BlockInv (run bytes) where
  hwOk := test_wf_params
  tapeOk := Memory.wf_nil
  tapeInside := fun c hc => by cases hc
  policyCopy := rfl
  errIff := by simp [run, Status.reset]
  waitInIff := by simp [run, Status.reset, State.reset]
  waitOutIff := by simp [run, Status.reset, State.reset]
  restOutside := by simp [run]
  boundary := .inl rfl
  running := fun _ =>
    { stepPos := Nat.le_refl 1
      progFits := h
      ipLe := Nat.zero_le _
      ptrRange := Nat.two_pow_pos 16
      permissiveInside := fun _ => Nat.one_pos
      lenSteps := Nat.dvd_refl 1
      lenLow := Nat.le_refl 1
      lenHigh := Nat.le_max_left _ _
      loopsBelow := List.pairwise_singleton _ 0
      loopsStarts := fun v hv => by cases hv
      depthLe := Nat.zero_le _
      capSteps := Nat.dvd_refl 1
      capLow := Nat.le_refl 1
      capHigh := Nat.le_max_left _ _
      heldRead := fun h => by cases h
      heldWrite := fun v h => by cases h }

/-- The same run in strict mode. -/
theorem witness_strict_inv (bytes : List Byte) (h : bytes.length ≤ 32767) : BlockInv (strictRun bytes) :=
  { witness_run_inv bytes h with
    policyCopy := rfl
    running := fun _ => { (witness_run_inv bytes h).running rfl with permissiveInside := fun h => by cases h } }

/-- StepKeepsInvariant, HostActionKeepsInvariant, ExitCodeFollowsTerminalStatus: from a state that meets the
invariant, a step and an action with a next state. -/
theorem witness_invariant :
    BlockInv (run [0x54]) ∧ (∃ t, step (run [0x54]) = .next t) ∧ ∃ t, hostAct (.answer .eof) (run [0x54]) = .next t :=
  ⟨witness_run_inv _ (by decide), ⟨_, rfl⟩, ⟨_, rfl⟩⟩

/-- TapeKeepsCanonicalForm, TapeGrowsInWholeSteps: a write, and two growths. -/
theorem witness_tape :
    Memory.wf (run [0x24]).tape ∧ (∃ t, onEvent .engine (run [0x24]) = .next t) ∧
    nextIs (runFor 2 (run [0x00])) (fun t => t.len == 3) = true := ⟨by decide, ⟨_, rfl⟩, by decide⟩

/-- StrictPointerLeavesTapeOnlyByUnderflow: a step that stays inside and the one that leaves. -/
theorem witness_strict_pointer :
    BlockInv (strictRun [0x01]) ∧ BlockInv (strictRun [0x1F]) ∧ (strictRun [0x1F]).status.run = .running ∧
    (strictRun [0x1F]).cfgStep ≤ hw.tapeMax ∧ (strictRun [0x1F]).cfgStrict = true ∧
    (strictRun [0x1F]).p < (strictRun [0x1F]).len ∧ (∃ t, step (strictRun [0x01]) = .next t) ∧
    ∃ t, step (strictRun [0x1F]) = .next t :=
  ⟨witness_strict_inv _ (by decide), witness_strict_inv _ (by decide), rfl, by decide, rfl, by decide, ⟨_, rfl⟩,
    ⟨_, rfl⟩⟩

/-- LargeEnoughLoopStackNeverOverflows: a LOOP_START in a run. -/
theorem witness_loop_stack :
    BlockInv (run [0x67]) ∧ (run [0x67]).status.run = .running ∧
    (run [0x67]).cfgStep * ((loopStartCount (run [0x67]).hw.opmap (run [0x67]).prog + (run [0x67]).cfgStep - 1) /
      (run [0x67]).cfgStep) ≤ (run [0x67]).hw.lstackMax ∧
    fetchInstr (run [0x67]) = some .loopStart ∧ ∃ t, step (run [0x67]) = .next t :=
  ⟨witness_run_inv _ (by decide), rfl, by decide, by decide, ⟨_, rfl⟩⟩

/-- FsmPerformsArchitecturalStep. -/
theorem witness_fsm : (run [0x66, 0x77]).status.run = .running ∧ (run [0x66, 0x77]).fsm = .fetch := by decide

/-- A run at LOOP_START of the loop `[ - ]` with the cell at 1. -/
def loopRun : State := { run [0x63, 0x7F] with tape := [(0, 1)] }

theorem witness_loop_run_inv : BlockInv loopRun :=
  { witness_run_inv [0x63, 0x7F] (by decide) with
    tapeOk := by decide
    tapeInside := by decide
    running := fun _ => { (witness_run_inv [0x63, 0x7F] (by decide)).running rfl with
      heldWrite := fun v h => by cases h } }

/-- LoopRunsBodyExactlyCellTimes: the loop `[ - ]` entered with the cell at 1 meets every hypothesis. -/
theorem witness_loop_law :
    BlockInv loopRun ∧ loopRun.status.run = .running ∧ fetchInstr loopRun = some .loopStart ∧
    loopRun.p < loopRun.len ∧ skipScan loopRun loopRun.ip = some 2 ∧ (pushLoop loopRun.ip loopRun).isSome ∧
    ∀ j b, RunsWithin loopRun.ip 2 j loopRun b → b.status.run = .running → b.ip = loopRun.ip + 1 →
      b.p = loopRun.p → b.loops = loopRun.ip :: loopRun.loops → b.cell b.p ≠ 0 → BodyPass loopRun.ip 2 b := by
  refine ⟨witness_loop_run_inv, rfl, by decide, by decide, by decide, by decide, ?_⟩
  rintro j b ⟨hj, hw⟩ - hip - - -
  have h4 : j < 4 := by
    by_contra h
    exact absurd (hw 4 (by omega) _ rfl).2 (by decide)
  interval_cases j
  · cases hj; exact absurd hip (by decide)
  · cases hj
    refine ⟨1, _, rfl, by decide, by decide, by decide, by decide, by decide, fun i hi u hu => ?_⟩
    interval_cases i
    cases hu; decide
  · cases hj; exact absurd hip (by decide)
  · cases hj; exact absurd hip (by decide)
/-- A permissive run held in WAIT_IN outside the tape, with a byte answered; no run reaches it. -/
def heldOutside : State :=
  { run [0x54] with
    p := 1
    fsm := .waitIn
    status := { (run [0x54]).status with waitIn := true }
    inAnswers := [.byte 7] }

/-- R52, D21: the internal step of that state is a fault and writes nothing. -/
theorem test_fsm_read_outside : microStep heldOutside = .fault .tapeAccessBeyondLen := by rfl

/-- NoCellOutsideTapeIsWritten: a step and an internal step that change a cell, and the held READ. -/
theorem witness_no_cell_outside :
    Memory.wf (run [0x2F]).tape ∧ nextIs (step (run [0x2F])) (fun t => t.cell 0 != (run [0x2F]).cell 0) = true ∧
    nextIs (microStep { run [0x2F] with fsm := .exec .incrVal }) (fun t => t.cell 0 != (run [0x2F]).cell 0) = true ∧
    heldOutside.status.run = .running ∧ heldOutside.fsm = .waitIn ∧ heldOutside.len ≤ heldOutside.p ∧
    heldOutside.cfgStrict = false := by decide

end Sys2Proof.Tests
end

section
/-! SUPPORT. The two policies (10_state.md R26): outside three cases a permissive answer is the strict one, case by
case of `ExecCase`; in each of the three the answers differ. -/

namespace Sys2Proof.Machine

open Sys2Proof

/-- The state under the policy `b`, its other fields kept: the statement's `{ s with cfgStrict := b }` by a name. -/
def State.setStrict (b : Bool) (s : State) : State := { s with cfgStrict := b }

@[simp] theorem State.setStrict_hw (b : Bool) (s : State) : (s.setStrict b).hw = s.hw := rfl

/-- R26's three cases in which the policies differ. -/
inductive PolicyCase : Instr → State → Prop
  /-- R121: DECR_PTR at 0. -/
  | backFromZero {s} (hp : s.p = 0) : PolicyCase .decrPtr s
  /-- R56: a cell access outside the tape. -/
  | outside {i s} (hi : i.opClass ∈ [.incrVal, .decrVal, .write, .read, .loopStart]) (hp : ¬ s.p < s.len) :
      PolicyCase i s
  /-- R152: LOOP_END on an empty stack. -/
  | endEmpty {s} (hl : s.loops = []) : PolicyCase .loopEnd s

/-- The strict answer is the permissive one but for the policy bit itself. -/
def PoliciesAgree (i : Instr) (s : State) : Prop :=
  exec i (s.setStrict true) = mapNext (State.setStrict true) (exec i (s.setStrict false))

/-- The instructions that access the current cell, by constructor and by class. -/
theorem mem_accessing_iff {i : Instr} :
    i ∈ [Instr.incrVal, .decrVal, .write, .read, .loopStart] ↔
      i.opClass ∈ [.incrVal, .decrVal, .write, .read, .loopStart] := by
  cases i <;> decide

/-- The three cases in the statement's words. -/
theorem not_policyCase_iff {i : Instr} {s : State} :
    ¬ PolicyCase i s ↔
      ¬ (i = .decrPtr ∧ s.p = 0) ∧
      ¬ (i ∈ [Instr.incrVal, .decrVal, .write, .read, .loopStart] ∧ s.len ≤ s.p) ∧
      ¬ (i = .loopEnd ∧ s.loops = []) := by
  rw [← not_or, ← not_or, not_iff_not, mem_accessing_iff]
  constructor
  · rintro (hp | ⟨hi, hp⟩ | hl)
    · exact .inl ⟨rfl, hp⟩
    · exact .inr (.inl ⟨hi, Nat.not_lt.1 hp⟩)
    · exact .inr (.inr ⟨rfl, hl⟩)
  · rintro (⟨rfl, hp⟩ | ⟨hi, hp⟩ | ⟨rfl, hl⟩)
    · exact .backFromZero hp
    · exact .outside hi (Nat.not_lt.2 hp)
    · exact .endEmpty hl

/-- Off 0 the strict DECR_PTR (R121) does not wrap. -/
theorem State.prevPtr_of_ne_zero {s : State} (hr : s.p < 2 ^ s.hw.ptrWidth) (hp : s.p ≠ 0) :
    s.prevPtr = s.p - 1 := by
  have e : s.p + (2 ^ s.hw.ptrWidth - 1) = s.p - 1 + 2 ^ s.hw.ptrWidth := by omega
  rw [State.prevPtr, e, Nat.add_mod_right, Nat.mod_eq_of_lt (by omega)]

/-- At 0 the strict DECR_PTR (R121) wraps, and a pointer of at least one bit then moves. -/
theorem State.prevPtr_ne_zero_of_zero {s : State} (hw : 0 < s.hw.ptrWidth) (hp : s.p = 0) : s.prevPtr ≠ 0 := by
  have h2 : 1 < 2 ^ s.hw.ptrWidth := Nat.one_lt_two_pow hw.ne'
  rw [State.prevPtr, hp, Nat.zero_add, Nat.mod_eq_of_lt (by omega)]
  omega

theorem State.storeAnswer_setStrict (b : Bool) (a : InAnswer) (s : State) :
    (s.setStrict b).storeAnswer a = (s.storeAnswer a).setStrict b := by
  cases a with
  | byte v => rfl
  | eof =>
    cases h : s.hw.eofPolicy with
    | eofZero => simp only [State.storeAnswer, State.setStrict_hw, h]; rfl
    | eofUnchanged => simp only [State.storeAnswer, State.setStrict_hw, h]

theorem State.takeAnswer_setStrict (b : Bool) (a : InAnswer) (rest : List InAnswer) (s : State) :
    (s.setStrict b).takeAnswer a rest = (s.takeAnswer a rest).setStrict b := by
  rw [State.takeAnswer, State.storeAnswer_setStrict]
  rfl

/-- Outside R26's three cases what a permissive instruction did, the strict one does. -/
theorem ExecCase.setStrict_true {i : Instr} {s t : State} (c : ExecCase i s t) (hs : s.cfgStrict = false)
    (hr : s.p < 2 ^ s.hw.ptrWidth) (hn : ¬ PolicyCase i s) :
    ExecCase i (s.setStrict true) (t.setStrict true) := by
  cases c with
  | outOfBounds hi hp _ => exact absurd (.outside hi hp) hn
  | move hm => exact .move hm
  | grow hm hle => exact .grow hm hle
  | tapeFull hm hlt => exact .tapeFull hm hlt
  | backStrict ht => rw [hs] at ht; cases ht
  | backPermissive _ =>
    rw [← State.prevPtr_of_ne_zero hr fun hp => hn (.backFromZero hp)]
    exact .backStrict rfl
  | incrVal hp => exact .incrVal hp
  | decrVal hp => exact .decrVal hp
  | writeOut hp ho => exact .writeOut hp ho
  | writeHeld hp ho => exact .writeHeld hp ho
  | readHeld hp ha => exact .readHeld hp ha
  | readIn hp ha =>
    rw [← State.takeAnswer_setStrict]
    exact .readIn hp ha
  | skip hp hz hm => exact .skip hp hz hm
  | unterminated hp hz hm => exact .unterminated hp hz hm
  | push hp hz hd => exact .push hp hz hd
  | pushGrow hp hz hd hm => exact .pushGrow hp hz hd hm
  | stackFull hp hz hd hm => exact .stackFull hp hz hd hm
  | pop hl => exact .pop hl
  | endUnexpected hl _ => exact absurd (.endEmpty hl) hn
  | endIgnored hl _ => exact absurd (.endEmpty hl) hn
  | inert hi => exact .inert hi

/-- Outside R26's three cases every instruction answers a next state, under either policy. -/
theorem exec_next_of_not_policyCase {i : Instr} {s : State} (hn : ¬ PolicyCase i s) : ∃ t, exec i s = .next t := by
  by_cases hi : i.opClass ∈ [.incrVal, .decrVal, .write, .read, .loopStart]
  · obtain ⟨act, e⟩ := exec_accessing hi s
    have hp : s.p < s.len := not_not.1 fun hp => hn (.outside hi hp)
    exact ⟨act (s.cell s.p), by rw [e, accessCell_inBounds hp]⟩
  · exact exec_not_accessing hi s

theorem PolicyCase.of_setStrict {b : Bool} {i : Instr} {s : State} (c : PolicyCase i (s.setStrict b)) :
    PolicyCase i s := by
  cases c with
  | backFromZero hp => exact .backFromZero hp
  | outside hi hp => exact .outside hi hp
  | endEmpty hl => exact .endEmpty hl

theorem policiesAgree_of_not_policyCase {i : Instr} {s : State} (hr : s.p < 2 ^ s.hw.ptrWidth)
    (hn : ¬ PolicyCase i s) : PoliciesAgree i s := by
  have hn' : ¬ PolicyCase i (s.setStrict false) := mt PolicyCase.of_setStrict hn
  obtain ⟨t, ht⟩ := exec_next_of_not_policyCase hn'
  rw [PoliciesAgree, ht]
  exact exec_of_case ((exec_next_cases ht).setStrict_true rfl hr hn')

/-- In each of R26's three cases the two answers differ: in `p`, by the model's fault, in `ip`. -/
theorem PolicyCase.not_policiesAgree {i : Instr} {s : State} (c : PolicyCase i s) (hw : 0 < s.hw.ptrWidth) :
    ¬ PoliciesAgree i s := by
  intro h
  unfold PoliciesAgree at h
  cases c with
  | backFromZero hp =>
    rw [exec_of_case (s := s.setStrict true) (.backStrict rfl),
      exec_of_case (s := s.setStrict false) (.backPermissive rfl)] at h
    have hpp : s.prevPtr = s.p - 1 := congrArg State.p (next_eq_next_iff.1 h.symm)
    exact State.prevPtr_ne_zero_of_zero hw hp (by omega)
  | outside hi hp =>
    obtain ⟨act, e⟩ := exec_accessing hi (s.setStrict false)
    rw [exec_of_case (s := s.setStrict true) (.outOfBounds hi hp rfl), e,
      accessCell_permissive (s := s.setStrict false) hp rfl] at h
    cases h
  | endEmpty hl =>
    rw [exec_of_case (s := s.setStrict true) (.endUnexpected hl rfl),
      exec_of_case (s := s.setStrict false) (.endIgnored hl rfl)] at h
    have hip : s.ip = s.ip + 1 := congrArg State.ip (next_eq_next_iff.1 h.symm)
    omega

/-- Settles O38: outside the three cases every case of the permissive answer is one of the strict answer
(`ExecCase.setStrict_true`); in each of them the answers differ (`PolicyCase.not_policiesAgree`). -/
theorem policyDifferencesAreExactlyThese : Obligations.PolicyDifferencesAreExactlyThese := by
  intro i s hw hr
  rw [← not_policyCase_iff]
  exact ⟨fun h c => c.not_policiesAgree hw h, policiesAgree_of_not_policyCase hr⟩

end Sys2Proof.Machine
end

section
/-! SUPPORT. The tape length under one instruction and one step (20_memory.md R55). -/

namespace Sys2Proof.Machine

open Sys2Proof

/-- `Grow()` as an instruction shows it (R53, R55): INCR_PTR moved `p` to the old `len`, and STEP cells were added. -/
def GrewTape (i : Instr) (s t : State) : Prop :=
  i = .incrPtr ∧ t.p = s.len ∧ t.len = s.len + s.cfgStep

/-- R55 for one instruction: `ExecCase.grow` alone writes `len`. -/
theorem ExecCase.len_eq_or_grewTape {i : Instr} {s t : State} (c : ExecCase i s t) :
    t.len = s.len ∨ GrewTape i s t := by
  cases c with
  | grow hn _ => exact .inr ⟨rfl, hn, rfl⟩
  | readIn _ _ => exact .inl (State.takeAnswer_len _ _ _)
  | outOfBounds | move | tapeFull | backStrict | backPermissive | incrVal | decrVal | writeOut | writeHeld
  | readHeld | skip | unterminated | push | pushGrow | stackFull | pop | endUnexpected | endIgnored
  | inert => exact .inl rfl

/-- Settles O27: a step that changes `len` ran an instruction (`step_next_cases`), and the only case of an
instruction that does is the growth of INCR_PTR (`ExecCase.len_eq_or_grewTape`). -/
theorem tapeLengthChangesOnlyByGrowth : Obligations.TapeLengthChangesOnlyByGrowth := by
  intro s t h hlen
  obtain ⟨_, rfl⟩ | ⟨_, _, rfl⟩ | ⟨hr, _, i, hi, hx⟩ := step_next_cases h
  · exact absurd rfl hlen
  · exact absurd s.finish_len hlen
  · obtain ⟨rfl, hp, hgrow⟩ := (exec_next_cases hx).len_eq_or_grewTape.resolve_left hlen
    exact ⟨hr, hi, hp, hgrow⟩

end Sys2Proof.Machine
end

section
/-! SUPPORT. The host during a run (20_memory.md R74; 10_state.md R33 to R35): which of its actions take effect, and
what it reads. -/

namespace Sys2Proof.Machine

open Sys2Proof

theorem hostLoad_of_running {s : State} (hr : s.status.run = .running) (bytes : List Byte) :
    hostLoad bytes s = s := if_pos hr

theorem hostSetStep_of_running {s : State} (hr : s.status.run = .running) (n : Nat) :
    hostSetStep n s = .next s := if_pos hr

theorem hostSetStrict_of_running {s : State} (hr : s.status.run = .running) (b : Bool) :
    hostSetStrict b s = s := if_pos hr

theorem hostStart_of_running {s : State} (hr : s.status.run = .running) : hostStart s = s := if_pos hr

/-- Everything a host action can do during a run: an answer joins the queue (R33), the readiness of the output is
set (R34), every other action is ignored (R35, R214). -/
theorem hostAct_next_of_running {a : HostAct} {s t : State} (hr : s.status.run = .running)
    (h : hostAct a s = .next t) :
    (∃ x, a = .answer x ∧ t = { s with inAnswers := s.inAnswers ++ [x] }) ∨
      (∃ b, a = .setOutReady b ∧ t = { s with outReady := b }) ∨ t = s := by
  cases a with
  | load bytes => exact .inr (.inr ((next_eq_next_iff.1 h).trans (hostLoad_of_running hr bytes)))
  | setStep n => exact .inr (.inr (next_eq_next_iff.1 ((hostSetStep_of_running hr n).symm.trans h)))
  | setStrict b => exact .inr (.inr ((next_eq_next_iff.1 h).trans (hostSetStrict_of_running hr b)))
  | start => exact .inr (.inr ((next_eq_next_iff.1 h).trans (hostStart_of_running hr)))
  | answer x => exact .inl ⟨x, rfl, next_eq_next_iff.1 h⟩
  | setOutReady b => exact .inr (.inl ⟨b, rfl, next_eq_next_iff.1 h⟩)

/-- During a run the host reads STATUS and nothing else (R35, R74). -/
theorem hostView_of_running {s : State} (hr : s.status.run = .running) :
    hostView s = { status := s.status.word, frozen := none } := by
  rw [hostView, if_pos hr]

/-- Settles O46: the two channels are all a host action reaches during a run (`hostAct_next_of_running`), and its
view is a function of STATUS (`hostView_of_running`). -/
theorem hostReachesOnlyChannelsAndStatus : Obligations.HostReachesOnlyChannelsAndStatus := by
  intro s hr
  constructor
  · intro a t h
    obtain ⟨x, _, rfl⟩ | ⟨b, _, rfl⟩ | rfl := hostAct_next_of_running hr h
    · rfl
    · rfl
    · rfl
  · intro t ht
    have htr : t.status.run = .running := ht ▸ hr
    rw [hostView_of_running htr, hostView_of_running hr, ht]

end Sys2Proof.Machine
end

section
/-! SUPPORT. The program store against the expanded program (30_encoding.md R81): which half of which byte a position
reads, and that decode-on-fetch reads the expanded program. -/

namespace Sys2Proof

/-- The high nibble is the quotient by 16 (R80). -/
theorem highNibble_toNat (b : Byte) : (highNibble b).toNat = b.toNat / 16 := by
  rw [highNibble, BitVec.extractLsb'_toNat, Nat.shiftRight_eq_div_pow]
  omega

/-- The low nibble is the remainder by 16 (R80). -/
theorem lowNibble_toNat (b : Byte) : (lowNibble b).toNat = b.toNat % 16 := by
  rw [lowNibble, BitVec.extractLsb'_toNat, Nat.shiftRight_zero]

theorem progNibble_even (bytes : List Byte) (i : Nat) :
    progNibble bytes (2 * i) = (bytes[i]?).map highNibble := by
  have hdiv : 2 * i / 2 = i := by omega
  have hmod : 2 * i % 2 = 0 := by omega
  simp only [progNibble, hdiv, hmod, if_true]

theorem progNibble_odd (bytes : List Byte) (i : Nat) :
    progNibble bytes (2 * i + 1) = (bytes[i]?).map lowNibble := by
  have hdiv : (2 * i + 1) / 2 = i := by omega
  have hmod : ¬ (2 * i + 1) % 2 = 0 := by omega
  simp only [progNibble, hdiv, hmod, if_false]

/-- A byte in front moves every nibble two positions on. -/
theorem progNibble_cons_add_two (b : Byte) (bytes : List Byte) (k : Nat) :
    progNibble (b :: bytes) (k + 2) = progNibble bytes k := by
  have hdiv : (k + 2) / 2 = k / 2 + 1 := by omega
  simp only [progNibble, hdiv, List.getElem?_cons_succ, Nat.add_mod_right]

/-- `L = 2N` (R81). -/
@[simp] theorem expandProgram_length (bytes : List Byte) : (expandProgram bytes).length = 2 * bytes.length := by
  induction bytes with
  | nil => rfl
  | cons b bytes ih =>
    rw [expandProgram, List.length_cons, List.length_cons, ih, List.length_cons]
    omega

/-- Decode-on-fetch reads the expanded program (R81, R88). -/
theorem getElem?_expandProgram (bytes : List Byte) (k : Nat) : (expandProgram bytes)[k]? = progNibble bytes k := by
  induction bytes generalizing k with
  | nil => rfl
  | cons b bytes ih =>
    match k with
    | 0 => rfl
    | 1 => rfl
    | k + 2 => rw [progNibble_cons_add_two, ← ih]; rfl

@[simp] theorem decodeProgram_length (m : OpMap) (bytes : List Byte) :
    (decodeProgram m bytes).length = 2 * bytes.length := by
  rw [decodeProgram, List.length_map, expandProgram_length]

/-- The decoded program holds at `k` what decode-on-fetch gives there, and nothing from `L` on (R81, R88). -/
theorem getElem?_decodeProgram (m : OpMap) (bytes : List Byte) (k : Nat) :
    (decodeProgram m bytes)[k]? = opAt m bytes k := by
  rw [decodeProgram, List.getElem?_map, getElem?_expandProgram, opAt]

/-- Settles O3: the positions `2i` and `2i + 1` read the two halves of byte `i` (`progNibble_even`,
`progNibble_odd`), and decode-on-fetch reads the decoded program (`getElem?_decodeProgram`). -/
theorem programByteHoldsTwoInstructions : Obligations.ProgramByteHoldsTwoInstructions := by
  intro m bytes
  refine ⟨fun i b hb => ⟨⟨highNibble b, ?_, highNibble_toNat b⟩, ⟨lowNibble b, ?_, lowNibble_toNat b⟩⟩,
    decodeProgram_length m bytes, fun k => (getElem?_decodeProgram m bytes k).symm, fun k hk => exists_opAt m hk⟩
  · rw [progNibble_even, hb, Option.map_some]
  · rw [progNibble_odd, hb, Option.map_some]

end Sys2Proof
end

section
/-! SUPPORT. The skip scan against the nesting count (44_loop.md R151): what each position adds to the open loops, and
that the scan answers the first position at which none is open. -/

namespace Sys2Proof.Machine

open Sys2Proof

theorem openLoops_self (m : OpMap) (bytes : List Byte) (start : Nat) : openLoops m bytes start start = 1 := by
  simp [openLoops]

/-- One more position adds its own `nestDelta` to the count. -/
theorem openLoops_succ (m : OpMap) (bytes : List Byte) {start k : Nat} (hk : start ≤ k) :
    openLoops m bytes start (k + 1) = openLoops m bytes start k + nestDelta m bytes (k + 1) := by
  have hlast : start + 1 + (k - start) = k + 1 := by omega
  simp only [openLoops, Nat.sub_add_comm hk, List.range'_1_concat, hlast, List.map_append, List.sum_append,
    List.map_cons, List.map_nil, List.sum_singleton]
  omega

/-- With a loop open at each position from `k` on, `e` is the first later position at which none is: from
`k = start` this is `MatchesLoop` (`closesAfter_start_iff`). -/
def ClosesAfter (m : OpMap) (bytes : List Byte) (start k e : Nat) : Prop :=
  k < e ∧ opAt m bytes e = some .loopEnd ∧ openLoops m bytes start e = 0 ∧
    ∀ j, k ≤ j → j < e → 0 < openLoops m bytes start j

theorem closesAfter_start_iff {m : OpMap} {bytes : List Byte} {start e : Nat} :
    ClosesAfter m bytes start start e ↔ MatchesLoop m bytes start e := Iff.rfl

/-- A position that leaves a loop open is not the one looked for. -/
theorem closesAfter_succ_iff {m : OpMap} {bytes : List Byte} {start k e : Nat}
    (hk : 0 < openLoops m bytes start k) (hk' : 0 < openLoops m bytes start (k + 1)) :
    ClosesAfter m bytes start (k + 1) e ↔ ClosesAfter m bytes start k e := by
  constructor
  · rintro ⟨hlt, hop, hzero, hopen⟩
    refine ⟨by omega, hop, hzero, fun j hj hje => ?_⟩
    obtain rfl | hj := hj.eq_or_lt
    · exact hk
    · exact hopen j hj hje
  · rintro ⟨hlt, hop, hzero, hopen⟩
    have hne : e ≠ k + 1 := by rintro rfl; omega
    exact ⟨by omega, hop, hzero, fun j hj hje => hopen j (by omega) hje⟩

/-- A LOOP_END that leaves no loop open is the one looked for, and no later position is. -/
theorem closesAfter_iff_of_closed {m : OpMap} {bytes : List Byte} {start k e : Nat}
    (hop : opAt m bytes (k + 1) = some .loopEnd) (hk : 0 < openLoops m bytes start k)
    (hk' : openLoops m bytes start (k + 1) = 0) : k + 1 = e ↔ ClosesAfter m bytes start k e := by
  constructor
  · rintro rfl
    refine ⟨by omega, hop, hk', fun j hj hje => ?_⟩
    obtain rfl : k = j := by omega
    exact hk
  · rintro ⟨hlt, _, _, hopen⟩
    by_contra hne
    have := hopen (k + 1) (by omega) (by omega)
    omega

/-- The scan from `k + 1` on, its counter the loops open at `k`, answers the first position at which none is. -/
theorem skipScanFrom_eq_some_iff {m : OpMap} {bytes : List Byte} {start e : Nat} (fuel : Nat) {k d : Nat}
    (hfuel : 2 * bytes.length ≤ k + 1 + fuel) (hstart : start ≤ k) (hcount : openLoops m bytes start k = d)
    (hd : 0 < d) : skipScanFrom m bytes fuel (k + 1) d = some e ↔ ClosesAfter m bytes start k e := by
  have hk : 0 < openLoops m bytes start k := by omega
  have hsucc := openLoops_succ m bytes hstart
  induction fuel generalizing k d with
  | zero =>
    simp only [skipScanFrom, reduceCtorEq, false_iff]
    rintro ⟨hlt, hop, -⟩
    have := lt_of_opAt hop
    omega
  | succ fuel ih =>
    have goesOn {d' : Nat} (hcount' : openLoops m bytes start (k + 1) = d') (hd' : 0 < d') :
        skipScanFrom m bytes fuel (k + 1 + 1) d' = some e ↔ ClosesAfter m bytes start k e := by
      have hk' : 0 < openLoops m bytes start (k + 1) := by omega
      exact (ih (by omega) (by omega) hcount' hd' hk' (openLoops_succ m bytes (by omega))).trans
        (closesAfter_succ_iff hk hk')
    rw [skipScanFrom]
    split
    · next hs =>
      rw [nestDelta, if_pos hs] at hsucc
      exact goesOn (by omega) (by omega)
    · next hs =>
      split
      · next he =>
        rw [nestDelta, if_neg hs, if_pos he] at hsucc
        split
        · rw [Option.some.injEq]
          exact closesAfter_iff_of_closed he hk (by omega)
        · exact goesOn (by omega) (by omega)
      · next he =>
        rw [nestDelta, if_neg hs, if_neg he] at hsucc
        exact goesOn (by omega) (by omega)

/-- The skip scan answers the matching LOOP_END (R151). -/
theorem skipScan_eq_some_iff {s : State} {start e : Nat} :
    skipScan s start = some e ↔ MatchesLoop s.hw.opmap s.prog start e := by
  rw [skipScan, ← closesAfter_start_iff]
  have hfuel : 2 * s.prog.length ≤ start + 1 + (s.progLen - (start + 1)) := by rw [State.progLen]; omega
  exact skipScanFrom_eq_some_iff _ hfuel le_rfl (openLoops_self _ _ _) Nat.one_pos

end Sys2Proof.Machine
end

section
/-! SUPPORT. The advance of `ip` (40_dispatch.md R102): an instruction raises an error, is held, or completes with `ip`
moved in one of three ways. -/

namespace Sys2Proof.Machine

open Sys2Proof

/-- R102's three ways, and which instruction takes which: `IpAdvance i s pos` where `i`, completed in `s`, leaves `ip`
at `pos`. -/
inductive IpAdvance : Instr → State → Nat → Prop
  | one {i s} (hstart : i = .loopStart → s.cell s.p ≠ 0)
      (hend : i = .loopEnd → s.loops = [] ∧ s.cfgStrict = false) : IpAdvance i s (s.ip + 1)
  | pastMatch {s m} (hz : s.cell s.p = 0) (hm : MatchesLoop s.hw.opmap s.prog s.ip m) :
      IpAdvance .loopStart s (m + 1)
  | popped {s v rest} (hl : s.loops = v :: rest) : IpAdvance .loopEnd s v

/-- An instruction that is no loop advances by one. -/
theorem IpAdvance.one_of_not_loop {i : Instr} {s : State} (hs : i ≠ .loopStart) (he : i ≠ .loopEnd) :
    IpAdvance i s (s.ip + 1) :=
  .one (absurd · hs) (absurd · he)

/-- What every instruction does to RUN and `ip` (R102): an error, or RUN is kept and the instruction is held or
advances `ip`. -/
theorem ExecCase.raises_or_holds_or_advances {i : Instr} {s t : State} (c : ExecCase i s t) :
    (∃ k, t = s.raise k s.ip) ∨
      (t.status.run = s.status.run ∧ (t.fsm ≠ .fetch ∨ IpAdvance i s t.ip)) := by
  cases c with
  | outOfBounds | tapeFull | unterminated | stackFull | endUnexpected => exact .inl ⟨_, rfl⟩
  | writeHeld | readHeld => exact .inr ⟨rfl, .inl nofun⟩
  | move | grow | backStrict | backPermissive | incrVal | decrVal | writeOut =>
    exact .inr ⟨rfl, .inr (.one_of_not_loop nofun nofun)⟩
  | readIn => exact .inr ⟨by rw [State.takeAnswer_status], .inr (.one_of_not_loop nofun nofun)⟩
  | inert hi =>
    exact .inr ⟨rfl, .inr (.one_of_not_loop (by rintro rfl; cases hi) (by rintro rfl; cases hi))⟩
  | skip _ hz hm => exact .inr ⟨rfl, .inr (.pastMatch hz (skipScan_eq_some_iff.1 hm))⟩
  | push _ hz | pushGrow _ hz => exact .inr ⟨rfl, .inr (.one (fun _ => hz) nofun)⟩
  | pop hl => exact .inr ⟨rfl, .inr (.popped hl)⟩
  | endIgnored hl hs => exact .inr ⟨rfl, .inr (.one nofun fun _ => ⟨hl, hs⟩)⟩

/-- Settles O37: an error leaves `ip`, a held instruction is not at FETCH, and every other next state advances `ip` in
one of the three ways (`ExecCase.raises_or_holds_or_advances`), which the clauses list by instruction. -/
theorem ipAdvancesInThreeWays : Obligations.IpAdvancesInThreeWays := by
  intro i s t hr h
  obtain ⟨k, rfl⟩ | ⟨hrun, hadv⟩ := (exec_next_cases h).raises_or_holds_or_advances
  · exact ⟨fun _ => rfl, nofun⟩
  · refine ⟨fun he => ?_, fun _ hf => ?_⟩
    · rw [hrun, hr] at he
      cases he
    · replace hadv := hadv.resolve_left (not_not.2 hf)
      generalize t.ip = pos at hadv ⊢
      cases hadv with
      | one hstart hend =>
        refine ⟨fun _ _ => rfl, fun _ _ => rfl, fun hi hz => absurd hz (hstart hi), fun hi v rest hl => ?_,
          fun hi _ => ⟨(hend hi).2, rfl⟩⟩
        exact absurd ((hend hi).1.symm.trans hl) (List.cons_ne_nil v rest).symm
      | pastMatch hz hm =>
        exact ⟨fun hi => absurd rfl hi, fun _ hnz => absurd hz hnz, fun _ _ => ⟨_, hm, rfl⟩, nofun, nofun⟩
      | popped hl =>
        refine ⟨fun _ hi => absurd rfl hi, nofun, nofun, fun _ v rest hl' => ?_, fun _ hl' => ?_⟩
        · exact (List.cons.inj (hl.symm.trans hl')).1
        · exact absurd (hl.symm.trans hl') (List.cons_ne_nil _ _)

end Sys2Proof.Machine
end

section
/-! SUPPORT. The step of a run (40_dispatch.md R101) at the end of the program and at a nibble. -/

namespace Sys2Proof.Machine

open Sys2Proof

/-- Settles O13: the end of the run is `step_of_end`; a nibble at `ip` is the instruction the step fetches
(`opAt_of_nibble`), which it then runs (`step_of_instr`). -/
theorem stepRunsDecodedInstruction : Obligations.StepRunsDecodedInstruction := by
  intro s hr
  refine ⟨fun hend => step_of_end hr hend, fun n hn => ?_⟩
  have hfetch : fetchInstr s = some (decodeNibble s.hw.opmap n) := opAt_of_nibble hn
  exact step_of_instr hr hfetch

end Sys2Proof.Machine
end

section
/-! SUPPORT. INCR_PTR (41_pointer.md R120): the plain move, the growth at the end of the tape, the full tape. -/

namespace Sys2Proof.Machine

open Sys2Proof

/-- Settles O16: its clauses are the cases `move`, `grow` and `tapeFull` of INCR_PTR (`exec_of_case`), and the grown
tape reads as 0 in the new cells and as before elsewhere (`Memory.read_zeroRange`). -/
theorem incrPtrMovesAndGrowsTape : Obligations.IncrPtrMovesAndGrowsTape := by
  intro s
  refine ⟨fun hn => exec_of_case (.move hn), fun hn hfits => ?_, fun hn hfull => exec_of_case (.tapeFull hn hfull)⟩
  have hp : s.nextPtr = s.len := hn
  refine ⟨_, exec_of_case (.grow hp hfits), ?_, fun a => Memory.read_zeroRange s.tape s.len s.cfgStep a⟩
  rw [hp]
  rfl

end Sys2Proof.Machine
end

section
/-! SUPPORT. INCR_VAL and DECR_VAL (42_cell.md R130, R131): the byte arithmetic as arithmetic modulo 256, and a
completed write of the current cell. -/

namespace Sys2Proof.Machine

open Sys2Proof

theorem byte_add_one_toNat (v : Byte) : (v + 1).toNat = (v.toNat + 1) % 256 := BitVec.toNat_add v 1

theorem byte_sub_one_toNat (v : Byte) : (v - 1).toNat = (v.toNat + 255) % 256 := by
  rw [BitVec.toNat_sub, Nat.add_comm]
  rfl

@[simp] theorem State.retire_cell (pos a : Nat) (s : State) : (s.retire pos).cell a = s.cell a := rfl

/-- `MemWrite` (R52) on a canonical tape: the current cell reads as the written byte. -/
theorem State.setCell_cell_self {s : State} (hm : Memory.wf s.tape) (v : Byte) : (s.setCell v).cell s.p = v :=
  (Memory.read_write hm s.p s.p v).trans (if_pos rfl)

/-- `MemWrite` (R52) on a canonical tape keeps every other cell. -/
theorem State.setCell_cell_of_ne {s : State} (hm : Memory.wf s.tape) (v : Byte) {a : Nat} (ha : a ≠ s.p) :
    (s.setCell v).cell a = s.cell a :=
  (Memory.read_write hm s.p a v).trans (if_neg ha)

/-- An instruction that completes by writing `v` to the current cell: `ip` advances, the current cell reads as `v`,
and nothing else changes. -/
theorem setCell_retire_next {i : Instr} {s : State} {v : Byte} (hm : Memory.wf s.tape)
    (h : exec i s = .next ((s.setCell v).retire (s.ip + 1))) :
    ∃ t, exec i s = .next t ∧ t = { s with ip := s.ip + 1, fsm := .fetch, tape := t.tape } ∧
      t.cell s.p = v ∧ ∀ a, a ≠ s.p → t.cell a = s.cell a := by
  refine ⟨_, h, rfl, ?_, fun a ha => ?_⟩
  · rw [State.retire_cell, State.setCell_cell_self hm]
  · rw [State.retire_cell, State.setCell_cell_of_ne hm v ha]

/-- Settles O18: inside the tape it is the case `incrVal`, a completed write of the byte plus one; strict outside it is
the case `outOfBounds`. -/
theorem incrValAddsOneModulo256 : Obligations.IncrValAddsOneModulo256 := by
  intro s hm
  refine ⟨fun hp => ?_, fun hp hs => exec_of_case (.outOfBounds (by decide) (Nat.not_lt.2 hp) hs)⟩
  obtain ⟨t, hexec, hframe, hcell, hrest⟩ := setCell_retire_next hm (exec_of_case (.incrVal hp))
  exact ⟨t, hexec, hframe, hcell ▸ byte_add_one_toNat _, hrest⟩

/-- Settles O19: inside the tape it is the case `decrVal`, a completed write of the byte minus one; strict outside it
is the case `outOfBounds`. -/
theorem decrValSubtractsOneModulo256 : Obligations.DecrValSubtractsOneModulo256 := by
  intro s hm
  refine ⟨fun hp => ?_, fun hp hs => exec_of_case (.outOfBounds (by decide) (Nat.not_lt.2 hp) hs)⟩
  obtain ⟨t, hexec, hframe, hcell, hrest⟩ := setCell_retire_next hm (exec_of_case (.decrVal hp))
  exact ⟨t, hexec, hframe, hcell ▸ byte_sub_one_toNat _, hrest⟩

end Sys2Proof.Machine
end

section
/-! SUPPORT. WRITE and READ (43_io.md R140, R141): the byte on offer, what an answer stores in the current cell, and
the frame of an answered READ. -/

namespace Sys2Proof.Machine

open Sys2Proof

/-- Where a held byte is the one `Emit` is called with, that one is on offer (R34, R36). -/
theorem State.offered_eq_self {s : State} {v : Byte} (h : ∀ b, s.fsm = .waitOut b → b = v) : s.offered v = v := by
  unfold State.offered
  split
  · next b hf => exact h b hf
  all_goals rfl

/-- Settles O20: its clauses are the cases `writeOut`, `writeHeld` and `outOfBounds`, the byte on offer being the
current cell (`State.offered_eq_self`). -/
theorem writeEmitsCurrentCell : Obligations.WriteEmitsCurrentCell := by
  intro s hheld
  have hoff : s.offered (s.cell s.p) = s.cell s.p := State.offered_eq_self hheld
  refine ⟨fun hp hready => ?_, fun hp hready => ?_,
    fun hp hs => exec_of_case (.outOfBounds (by decide) (Nat.not_lt.2 hp) hs)⟩
  · exact (exec_of_case (.writeOut hp hready)).trans (by rw [hoff]; rfl)
  · exact (exec_of_case (.writeHeld hp hready)).trans (by rw [hoff]; rfl)

@[simp] theorem State.storeAnswer_byte (v : Byte) (s : State) : s.storeAnswer (.byte v) = s.setCell v := rfl

theorem State.storeAnswer_eof_of_zero {s : State} (h : s.hw.eofPolicy = .eofZero) :
    s.storeAnswer .eof = s.setCell 0 := by
  simp only [State.storeAnswer, h]

theorem State.storeAnswer_eof_of_unchanged {s : State} (h : s.hw.eofPolicy = .eofUnchanged) :
    s.storeAnswer .eof = s := by
  simp only [State.storeAnswer, h]

/-- An answer writes the tape and nothing else (R141). -/
theorem State.storeAnswer_eq_with_tape (a : InAnswer) (s : State) :
    s.storeAnswer a = { s with tape := (s.storeAnswer a).tape } := by
  obtain h | ⟨v, h⟩ := s.storeAnswer_cases a
  · rw [h]
  · rw [h]; rfl

/-- An answer keeps every cell but the current one (R141). -/
theorem State.storeAnswer_cell_of_ne {s : State} (hm : Memory.wf s.tape) (a : InAnswer) {b : Nat} (hb : b ≠ s.p) :
    (s.storeAnswer a).cell b = s.cell b := by
  obtain h | ⟨v, h⟩ := s.storeAnswer_cases a
  · rw [h]
  · rw [h, State.setCell_cell_of_ne hm v hb]

@[simp] theorem State.takeAnswer_cell (a : InAnswer) (rest : List InAnswer) (s : State) (b : Nat) :
    (s.takeAnswer a rest).cell b = (s.storeAnswer a).cell b := rfl

/-- The next state of an answered READ (R33, R141), up to its tape. -/
theorem State.takeAnswer_eq_with_tape (a : InAnswer) (rest : List InAnswer) (s : State) :
    s.takeAnswer a rest = { s with
      ip := s.ip + 1, fsm := .fetch, inAnswers := rest, inTaken := s.inTaken ++ [a],
      status := { s.status with waitIn := false }, tape := (s.takeAnswer a rest).tape } := by
  rw [State.takeAnswer, State.storeAnswer_eq_with_tape]
  rfl

/-- Settles O21: its clauses are the cases `readIn`, `readHeld` and `outOfBounds`; the frame of an answered READ is
`State.takeAnswer_eq_with_tape`, and its cells are those of `State.storeAnswer`, by the answer and EOF_POLICY. -/
theorem readFillsCurrentCell : Obligations.ReadFillsCurrentCell := by
  intro s hm
  refine ⟨fun hp a rest ha => ?_, fun hp ha => exec_of_case (.readHeld hp ha),
    fun hp hs => exec_of_case (.outOfBounds (by decide) (Nat.not_lt.2 hp) hs)⟩
  refine ⟨_, exec_of_case (.readIn hp ha), State.takeAnswer_eq_with_tape a rest s, ?_, ?_, ?_, fun b hb => ?_⟩
  · rintro v rfl
    rw [State.takeAnswer_cell, State.storeAnswer_byte, State.setCell_cell_self hm]
  · rintro rfl hpolicy
    rw [State.takeAnswer_cell, State.storeAnswer_eof_of_zero hpolicy, State.setCell_cell_self hm]
  · rintro rfl hpolicy
    rw [State.takeAnswer_cell, State.storeAnswer_eof_of_unchanged hpolicy]
  · rw [State.takeAnswer_cell, State.storeAnswer_cell_of_ne hm a hb]

end Sys2Proof.Machine
end

section
/-! SUPPORT. The loop instructions (44_loop.md R151, R152): a scan without an answer, and the three ways of LOOP_END. -/

namespace Sys2Proof.Machine

open Sys2Proof

/-- The skip scan reaches the end of the program exactly where there is no matching LOOP_END (R151). -/
theorem skipScan_eq_none_iff {s : State} {start : Nat} :
    skipScan s start = none ↔ ¬ ∃ m, MatchesLoop s.hw.opmap s.prog start m := by
  simp only [Option.eq_none_iff_forall_ne_some, ne_eq, skipScan_eq_some_iff, not_exists]

/-- Settles O39: the scan's answer is the position the nesting count singles out, by the induction over the scan
(`skipScanFrom_eq_some_iff`), so it has no answer exactly where there is no such position. -/
theorem skipScanFindsMatchingLoopEnd : Obligations.SkipScanFindsMatchingLoopEnd :=
  fun _ _ => ⟨fun _ => skipScan_eq_some_iff, skipScan_eq_none_iff⟩

/-- Settles O23: its clauses are the cases `pop`, `endUnexpected` and `endIgnored` of LOOP_END (`exec_of_case`). -/
theorem loopEndPopsAndJumps : Obligations.LoopEndPopsAndJumps :=
  fun _ => ⟨fun _ _ hl => exec_of_case (.pop hl), fun hl hs => exec_of_case (.endUnexpected hl hs),
    fun hl hs => exec_of_case (.endIgnored hl hs)⟩

end Sys2Proof.Machine
end

section
/-! SUPPORT. The inert instructions (45_inert.md R170): the eight labels are one class of OPMAP. -/

namespace Sys2Proof.Machine

open Sys2Proof

/-- The eight inert labels are of the class INERT (R83). -/
theorem opClass_eq_inert_of_mem :
    ∀ i ∈ [Instr.inert8, .inert9, .inertA, .inertB, .inertC, .inertD, .inertE, .inertF], i.opClass = .inert := by
  decide

/-- Settles O24: each of the eight is of the class INERT (`opClass_eq_inert_of_mem`), and an instruction of that class
has the one case `inert`, the bare completion at `ip + 1`. -/
theorem inertOnlyAdvances : Obligations.InertOnlyAdvances :=
  fun i hi _ => exec_of_case (.inert (opClass_eq_inert_of_mem i hi))

end Sys2Proof.Machine
end

section
/-! SUPPORT. The errors an instruction raises and where (60_exceptions.md section 1): an instruction that raises none
keeps RUN and ERR. -/

namespace Sys2Proof.Machine

open Sys2Proof

/-- The causes of the errors of instructions: `Raises i s k` where `i`, executed in `s`, raises `k`. -/
inductive Raises : Instr → State → ErrKind → Prop
  /-- R181: a strict cell access outside the tape. -/
  | outOfBounds {i s} (hi : i.opClass ∈ [.incrVal, .decrVal, .write, .read, .loopStart]) (hp : ¬ s.p < s.len)
      (hs : s.cfgStrict = true) : Raises i s .dataIndexOutOfBounds
  /-- R185: the tape cannot grow. -/
  | tapeFull {s} (hn : s.nextPtr = s.len) (hm : s.hw.tapeMax < s.len + s.cfgStep) :
      Raises .incrPtr s .capacityExceeded
  /-- R185: the loop stack cannot grow. -/
  | stackFull {s} (hp : s.p < s.len) (hz : s.cell s.p ≠ 0) (hd : s.depth = s.cap)
      (hm : s.hw.lstackMax < s.cap + s.cfgStep) : Raises .loopStart s .capacityExceeded
  /-- R183: a loop to skip without a matching LOOP_END. -/
  | unterminated {s} (hp : s.p < s.len) (hz : s.cell s.p = 0)
      (hm : ¬ ∃ m, MatchesLoop s.hw.opmap s.prog s.ip m) : Raises .loopStart s .unterminatedLoop
  /-- R182: a strict LOOP_END on an empty stack. -/
  | endUnexpected {s} (hs : s.cfgStrict = true) (hl : s.loops = []) : Raises .loopEnd s .unexpectedLoopEnd

/-- Each cause is a case of the instruction, with the error taken at `ip` (R187). -/
theorem Raises.exec_eq {i : Instr} {s : State} {k : ErrKind} (r : Raises i s k) :
    exec i s = .next (s.raise k s.ip) := by
  cases r with
  | outOfBounds hi hp hs => exact exec_of_case (.outOfBounds hi hp hs)
  | tapeFull hn hm => exact exec_of_case (.tapeFull hn hm)
  | stackFull hp hz hd hm => exact exec_of_case (.stackFull hp hz hd hm)
  | unterminated hp hz hm => exact exec_of_case (.unterminated hp hz (skipScan_eq_none_iff.2 hm))
  | endUnexpected hs hl => exact exec_of_case (.endUnexpected hl hs)

/-- An instruction raises an error for one of the causes, or it keeps RUN and ERR. -/
theorem ExecCase.raises_or_keeps_run_err {i : Instr} {s t : State} (c : ExecCase i s t) :
    (∃ k, Raises i s k ∧ t = s.raise k s.ip) ∨ (t.status.run = s.status.run ∧ t.status.err = s.status.err) := by
  cases c with
  | outOfBounds hi hp hs => exact .inl ⟨_, .outOfBounds hi hp hs, rfl⟩
  | tapeFull hn hm => exact .inl ⟨_, .tapeFull hn hm, rfl⟩
  | stackFull hp hz hd hm => exact .inl ⟨_, .stackFull hp hz hd hm, rfl⟩
  | unterminated hp hz hm => exact .inl ⟨_, .unterminated hp hz (skipScan_eq_none_iff.1 hm), rfl⟩
  | endUnexpected hl hs => exact .inl ⟨_, .endUnexpected hs hl, rfl⟩
  | readIn => exact .inr (by rw [State.takeAnswer_status]; exact ⟨rfl, rfl⟩)
  | move | grow | backStrict | backPermissive | incrVal | decrVal | writeOut | writeHeld | readHeld | skip | push
  | pushGrow | pop | endIgnored | inert => exact .inr ⟨rfl, rfl⟩

/-- From a state with no error, ERR afterwards is `k` exactly where there is a cause of `k`. -/
theorem exec_err_eq_some_iff {i : Instr} {s t : State} {k : ErrKind} (h : exec i s = .next t)
    (he : s.status.err = none) : t.status.err = some k ↔ Raises i s k := by
  constructor
  · intro hk
    obtain ⟨k', r, rfl⟩ | ⟨-, hkeep⟩ := (exec_next_cases h).raises_or_keeps_run_err
    · obtain rfl : k' = k := Option.some.inj hk
      exact r
    · rw [hkeep, he] at hk
      cases hk
  · intro r
    rw [next_eq_next_iff.1 (r.exec_eq.symm.trans h)]
    rfl

/-- Settles O32: the one cause of UnexpectedLoopEnd is `Raises.endUnexpected` (`exec_err_eq_some_iff`), and the
permissive LOOP_END on an empty stack is the case `endIgnored`. -/
theorem unexpectedLoopEndExactlyWhen : Obligations.UnexpectedLoopEndExactlyWhen := by
  refine fun i s => ⟨fun t h he => ?_, fun hs hl => exec_of_case (.endIgnored hl hs)⟩
  rw [exec_err_eq_some_iff h he]
  constructor
  · intro r
    cases r with
    | endUnexpected hs hl => exact ⟨rfl, hs, hl⟩
  · rintro ⟨rfl, hs, hl⟩
    exact .endUnexpected hs hl

/-- Settles O33: the one cause of UnterminatedLoop is `Raises.unterminated` (`exec_err_eq_some_iff`). -/
theorem unterminatedLoopExactlyWhen : Obligations.UnterminatedLoopExactlyWhen := by
  intro i s t h he
  rw [exec_err_eq_some_iff h he]
  constructor
  · intro r
    cases r with
    | unterminated hp hz hm => exact ⟨rfl, hp, hz, hm⟩
  · rintro ⟨rfl, hp, hz, hm⟩
    exact .unterminated hp hz hm

end Sys2Proof.Machine
end

section
/-! SUPPORT. The exit code (60_exceptions.md R191) by RUN, and how a step of a run comes to each code. -/

namespace Sys2Proof.Machine

open Sys2Proof

theorem exitCode_eq_zero_iff {s : State} : exitCode s = some 0 ↔ s.status.run = .done := by
  unfold exitCode
  cases s.status.run <;> decide

theorem exitCode_eq_one_iff {s : State} : exitCode s = some 1 ↔ s.status.run = .error := by
  unfold exitCode
  cases s.status.run <;> decide

/-- Settles O48: a step of a run ends it at L, takes an error, or keeps RUN and ERR (`step_next_cases`,
`ExecCase.raises_or_keeps_run_err`); before it no error is recorded (`BlockInv.errIff`). -/
theorem exitCodeFollowsTerminalStatus : Obligations.ExitCodeFollowsTerminalStatus := by
  refine ⟨fun _ => exitCode_eq_zero_iff.2, fun _ => exitCode_eq_one_iff.2, fun s t hinv hr h => ?_⟩
  have herr : s.status.err = none := by
    by_contra hne
    cases hr.symm.trans (hinv.errIff.1 hne)
  rw [exitCode_eq_zero_iff, exitCode_eq_one_iff]
  obtain ⟨hnr, -⟩ | ⟨-, hend, rfl⟩ | ⟨-, hend, i, -, hx⟩ := step_next_cases h
  · exact absurd hr hnr
  · exact ⟨iff_of_true rfl hend, iff_of_false nofun (not_not.2 herr)⟩
  · obtain ⟨k, -, rfl⟩ | ⟨hrun, hkeep⟩ := (exec_next_cases hx).raises_or_keeps_run_err
    · exact ⟨iff_of_false nofun hend, iff_of_true rfl nofun⟩
    · rw [hrun, hr, hkeep, herr]
      exact ⟨iff_of_false nofun hend, iff_of_false nofun (not_not.2 rfl)⟩

end Sys2Proof.Machine
end

section
/-! SUPPORT. What is fixed from run start until the run ends (70_reset_and_hazards.md R214): the configuration, the
program store and the parameters. -/

namespace Sys2Proof.Machine

open Sys2Proof

/-- `t` has the configuration registers, the program store and the parameters of `s` (R214). -/
def SameConfig (s t : State) : Prop :=
  t.cfgStep = s.cfgStep ∧ t.cfgStrict = s.cfgStrict ∧ t.prog = s.prog ∧ t.hw = s.hw

theorem SameConfig.refl (s : State) : SameConfig s s := ⟨rfl, rfl, rfl, rfl⟩

theorem State.takeAnswer_sameConfig (a : InAnswer) (rest : List InAnswer) (s : State) :
    SameConfig s (s.takeAnswer a rest) :=
  ⟨s.takeAnswer_cfgStep a rest, s.takeAnswer_cfgStrict a rest, s.takeAnswer_prog a rest, s.takeAnswer_hw a rest⟩

/-- R214 for one instruction: no case of it writes the configuration, the program store or the parameters. -/
theorem ExecCase.sameConfig {i : Instr} {s t : State} (c : ExecCase i s t) : SameConfig s t := by
  cases c with
  | readIn _ _ => exact State.takeAnswer_sameConfig _ _ _
  | outOfBounds | move | grow | tapeFull | backStrict | backPermissive | incrVal | decrVal | writeOut | writeHeld
  | readHeld | skip | unterminated | push | pushGrow | stackFull | pop | endUnexpected | endIgnored
  | inert => exact .refl s

/-- R214 for the engine. -/
theorem step_sameConfig {s t : State} (h : step s = .next t) : SameConfig s t := by
  obtain ⟨_, rfl⟩ | ⟨_, _, rfl⟩ | ⟨_, _, i, _, hx⟩ := step_next_cases h
  · exact .refl t
  · exact .refl s
  · exact (exec_next_cases hx).sameConfig

/-- R214 for the host. -/
theorem hostAct_sameConfig_of_running {a : HostAct} {s t : State} (hr : s.status.run = .running)
    (h : hostAct a s = .next t) : SameConfig s t := by
  obtain ⟨x, _, rfl⟩ | ⟨b, _, rfl⟩ | rfl := hostAct_next_of_running hr h
  · exact .refl s
  · exact .refl s
  · exact .refl t

/-- Settles O11: a load and START are ignored (`hostLoad_of_running`, `hostStart_of_running`), and neither kind of
event writes what is fixed (`step_sameConfig`, `hostAct_sameConfig_of_running`). -/
theorem configurationIsFixedDuringRun : Obligations.ConfigurationIsFixedDuringRun := by
  intro s hr
  refine ⟨fun bytes => congrArg Host.Outcome.next (hostLoad_of_running hr bytes),
    congrArg Host.Outcome.next (hostStart_of_running hr), fun e t h => ?_⟩
  cases e with
  | engine => exact step_sameConfig h
  | host a => exact hostAct_sameConfig_of_running hr h

end Sys2Proof.Machine
end

section
/-! SUPPORT. OPMAP as a bijection (30_encoding.md R83, R84): under a legal map every instruction has exactly one nibble,
so decoding and encoding are inverse. -/

namespace Sys2Proof

theorem Instr.mem_all (i : Instr) : i ∈ Instr.all := by
  cases i <;> decide

/-- A map without a repetition lists all 16 rows of the opcode table (R84). -/
theorem Instr.wf_of_map_wf {m : OpMap} (hm : m.wf) (i : Instr) : i.wf m := by
  have hsub : m.toList ⊆ Instr.all := fun j _ => j.mem_all
  have hlen : Instr.all.length ≤ m.toList.length := by rw [Vector.length_toList]; decide
  exact ((List.subperm_of_subset hm hsub).perm_of_length_le hlen).mem_iff.2 i.mem_all

/-- The nibble of an instruction is its position in the map. -/
theorem encode_toNat {m : OpMap} {i : Instr} (hi : i.wf m) : (encode m i).toNat = m.toList.idxOf i := by
  have hlt : m.toList.idxOf i < 16 := by simpa using List.idxOf_lt_length_iff.2 hi
  rw [encode, BitVec.toNat_ofNat, Nat.mod_eq_of_lt hlt]

theorem decodeNibble_eq_getElem_toList (m : OpMap) (n : Nibble) :
    decodeNibble m n = m.toList[n.toNat]'(by simpa using n.isLt) :=
  (Vector.getElem_toList _).symm

/-- Decoding undoes encoding, for every instruction that has an encoding. -/
theorem decodeNibble_encode {m : OpMap} {i : Instr} (hi : i.wf m) : decodeNibble m (encode m i) = i := by
  simp only [decodeNibble_eq_getElem_toList, encode_toNat hi, List.getElem_idxOf]

/-- Encoding undoes decoding under a legal map. -/
theorem encode_decodeNibble {m : OpMap} (hm : m.wf) (n : Nibble) : encode m (decodeNibble m n) = n := by
  apply BitVec.eq_of_toNat_eq
  rw [encode_toNat (Instr.wf_of_map_wf hm _), decodeNibble_eq_getElem_toList, hm.idxOf_getElem]

/-- Settles O2: a legal map lists every instruction (`Instr.wf_of_map_wf`), and a position in a list without repetition
and the entry there determine each other. -/
theorem decodeAndEncodeAgree : Obligations.DecodeAndEncodeAgree := by
  intro m hm
  refine ⟨fun i => ?_, encode_decodeNibble hm⟩
  have hi : i.wf m := Instr.wf_of_map_wf hm i
  exact ⟨hi, decodeNibble_encode hi⟩

end Sys2Proof
end

section
/-! SUPPORT. The assembler's packing (30_encoding.md R82, R90): packing is the inverse of expanding, and an assembled
list decodes to itself. -/

namespace Sys2Proof

theorem packNibbles_toNat (a b : Nibble) : (packNibbles a b).toNat = 16 * a.toNat + b.toNat := by
  rw [packNibbles, BitVec.toNat_append, ← Nat.shiftLeft_add_eq_or_of_lt b.isLt, Nat.shiftLeft_eq]
  omega

/-- A byte is its two halves, packed (R82). -/
@[simp] theorem packNibbles_high_low (b : Byte) : packNibbles (highNibble b) (lowNibble b) = b := by
  apply BitVec.eq_of_toNat_eq
  rw [packNibbles_toNat, highNibble_toNat, lowNibble_toNat, Nat.div_add_mod]

/-- Packing an expanded program gives its bytes back, and never comes to the fill. -/
theorem packProgram_expandProgram (fill : Nibble) (bytes : List Byte) :
    packProgram fill (expandProgram bytes) = bytes := by
  induction bytes with
  | nil => rfl
  | cons b bytes ih => rw [expandProgram, packProgram, packNibbles_high_low, ih]

/-- Settles O4: `packNibbles_toNat`, the two halves of a packed byte, and `packProgram_expandProgram`. -/
theorem packingInvertsDecoding : Obligations.PackingInvertsDecoding :=
  ⟨packNibbles_toNat, fun a b => ⟨highNibble_pack a b, lowNibble_pack a b⟩, packProgram_expandProgram⟩

/-- Expanding a packed list gives the list back, with the fill behind one of odd length (R90). -/
theorem expandProgram_packProgram (fill : Nibble) (ns : List Nibble) :
    expandProgram (packProgram fill ns) = ns ++ if ns.length % 2 = 1 then [fill] else [] := by
  induction ns using packProgram.induct with
  | case1 => rfl
  | case2 a => rw [packProgram, expandProgram, expandProgram, highNibble_pack, lowNibble_pack]; rfl
  | case3 a b rest ih =>
    have hparity : (a :: b :: rest).length % 2 = rest.length % 2 := Nat.add_mod_right _ 2
    rw [packProgram, expandProgram, highNibble_pack, lowNibble_pack, ih, hparity]
    rfl

/-- Settles O5: the packed nibbles expand to themselves and the fill (`expandProgram_packProgram`, the induction over
the list), and each nibble decodes to the instruction it encodes (`decodeNibble_encode`). -/
theorem assembledProgramDecodesToSource : Obligations.AssembledProgramDecodesToSource := by
  intro m hm instrs
  have hround (i : Instr) : decodeNibble m (encode m i) = i := decodeNibble_encode (Instr.wf_of_map_wf hm i)
  have hlist : (instrs.map (encode m)).map (decodeNibble m) = instrs := by
    simp only [List.map_map, Function.comp_def, hround, List.map_id']
  rw [decodeProgram, assemble, expandProgram_packProgram, List.map_append, hlist, List.length_map]
  split
  · rw [List.map_singleton, hround]
  · rfl

end Sys2Proof
end


section
/-! SUPPORT. The assembly text (30_encoding.md R89): a line determines its instruction, and no instruction's line is a
short form. -/

namespace Sys2Proof.Machine

open Sys2Proof

/-- The nibble of a hex digit. -/
def nibbleOfDigit (c : Char) : Nibble := BitVec.ofNat 4 ("0123456789ABCDEF".toList.idxOf c)

theorem nibbleOfDigit_hexDigit : ∀ n : Nibble, nibbleOfDigit (hexDigit n) = n := by
  decide

/-- The lines of the eight opcodes (R89). -/
def opcodeLines : List (List Char × Instr) :=
  [("INCR_PTR".toList, .incrPtr), ("DECR_PTR".toList, .decrPtr), ("INCR_VAL".toList, .incrVal),
   ("DECR_VAL".toList, .decrVal), ("WRITE".toList, .write), ("READ".toList, .read),
   ("LOOP_START".toList, .loopStart), ("LOOP_END".toList, .loopEnd)]

/-- A line read back without the table of all lines: an opcode's line, else an inert value by its last digit. -/
def instrOfLine (m : OpMap) (line : List Char) : Instr :=
  (opcodeLines.lookup line).getD (decodeNibble m (nibbleOfDigit (line.getLastD '0')))

/-- Reading back undoes `asmLine`: an opcode's line is listed, and an inert line ends in the digit of its nibble. -/
theorem instrOfLine_asmLine {m : OpMap} (hm : m.wf) (i : Instr) : instrOfLine m (asmLine m i) = i := by
  have hdigit : decodeNibble m (nibbleOfDigit (hexDigit (encode m i))) = i := by
    rw [nibbleOfDigit_hexDigit, decodeNibble_encode (Instr.wf_of_map_wf hm i)]
  cases i with
  | incrPtr | decrPtr | incrVal | decrVal | write | read | loopStart | loopEnd => rfl
  | inert8 | inert9 | inertA | inertB | inertC | inertD | inertE | inertF => exact hdigit

/-- Under a legal map the lines of two instructions differ. -/
theorem asmLine_injective {m : OpMap} (hm : m.wf) : Function.Injective (asmLine m) :=
  Function.LeftInverse.injective (instrOfLine_asmLine hm)

/-- No instruction's line is a short form, which is one character long. -/
theorem shortForms_find_asmLine (m : OpMap) (i : Instr) :
    shortForms.find? (fun f => asmLine m i == [f.1]) = none := by
  cases i <;> rfl

theorem Instr.all_find (i : Instr) : Instr.all.find? (fun j => i == j) = some i := by
  cases i <;> rfl

theorem parseLine_asmLine {m : OpMap} (hm : m.wf) (i : Instr) : parseLine m (asmLine m i) = some i := by
  have hline : (fun j => asmLine m i == asmLine m j) = fun j => i == j := by
    funext j
    rw [Bool.beq_eq_decide_eq, Bool.beq_eq_decide_eq, decide_eq_decide, (asmLine_injective hm).eq_iff]
  rw [parseLine, shortForms_find_asmLine, hline, Instr.all_find]

/-- Settles O6: no line is a short form (`shortForms_find_asmLine`) and the lines differ (`asmLine_injective`), so a
line's search finds its own instruction; the eight short forms are looked up. -/
theorem assemblyLineNamesItsInstruction : Obligations.AssemblyLineNamesItsInstruction :=
  fun _ hm => ⟨parseLine_asmLine hm, rfl, rfl, rfl, rfl, rfl, rfl, rfl, rfl⟩

end Sys2Proof.Machine
end

section
/-! SUPPORT. Placing an instruction at `ip` (30_encoding.md R81; log 19, log 23): the placed nibble is read back, and
the next step runs it. -/

namespace Sys2Proof

/-- The nibble put at a position is read back there, whatever the store held. -/
theorem progNibble_putNibble (fill n : Nibble) (bytes : List Byte) (k : Nat) :
    progNibble (putNibble fill n bytes k) k = some n := by
  induction bytes, k using putNibble.induct with
  | case1 => exact congrArg some (highNibble_pack n fill)
  | case2 => exact congrArg some (lowNibble_pack fill n)
  | case3 k ih => rw [putNibble, progNibble_cons_add_two, ih]
  | case4 b bytes => exact congrArg some (highNibble_pack n _)
  | case5 b bytes => exact congrArg some (lowNibble_pack _ n)
  | case6 b bytes k ih => rw [putNibble, progNibble_cons_add_two, ih]

/-- A table word decodes to the instruction the default map gives its nibble (R83; log 23). -/
theorem decodeTableWord_eight (w : Nat) :
    decodeTableWord 8 w = some (decodeNibble OpMap.default (tableNibble w)) := by
  have hhigh : progNibble [packNibbles (tableNibble w) 0] 0 = some (tableNibble w) :=
    congrArg some (highNibble_pack _ _)
  rw [decodeTableWord, if_neg (by decide), opAt_of_nibble hhigh]

end Sys2Proof

namespace Sys2Proof.Machine

open Sys2Proof

theorem State.readyToFetch_running (s : State) : s.readyToFetch.status.run = .running := by
  unfold State.readyToFetch
  split
  · next hr => exact hr
  · rfl

theorem State.readyToFetch_hw (s : State) : s.readyToFetch.hw = s.hw := by
  unfold State.readyToFetch
  split <;> rfl

/-- A placed instruction is the one fetched, where it has an encoding. -/
theorem fetchInstr_placeInstr {s : State} {i : Instr} (hi : i.wf s.hw.opmap) :
    fetchInstr (s.placeInstr i) = some i := by
  have hnibble : progNibble (s.placeInstr i).prog s.ip = some (encode s.hw.opmap i) := progNibble_putNibble _ _ _ _
  have hop := opAt_of_nibble (m := s.hw.opmap) hnibble
  rwa [decodeNibble_encode hi] at hop

/-- Settles O15: the run is ready to fetch (`State.readyToFetch_running`), and the fetched instruction is the placed one
(`fetchInstr_placeInstr`), which under a legal map has an encoding. -/
theorem placedWordRunsNext : Obligations.PlacedWordRunsNext := by
  intro s w i hm hw
  obtain rfl : decodeNibble OpMap.default (tableNibble w) = i :=
    Option.some.inj ((decodeTableWord_eight w).symm.trans hw)
  have hmap : s.readyToFetch.hw.opmap.wf := by rwa [State.readyToFetch_hw]
  exact step_of_instr s.readyToFetch_running (fetchInstr_placeInstr (Instr.wf_of_map_wf hmap _))

end Sys2Proof.Machine
end

section
/-! SUPPORT. The table's words under the default map (30_encoding.md R83, decision D1). -/

namespace Sys2Proof

/-- Settles O1: a table word decodes as the default map gives its low nibble (`decodeTableWord_eight`), read off the
map's table for the ten words. -/
theorem defaultMapDecodesTableWords : Obligations.DefaultMapDecodesTableWords := by
  unfold Obligations.DefaultMapDecodesTableWords
  simp only [decodeTableWord_eight]
  decide

end Sys2Proof
end


section
/-! SUPPORT. The tape under one instruction (20_memory.md section 2; log 22): the canonical form is kept, and no cell is
listed at `len` or above. -/

namespace Sys2Proof.Machine

open Sys2Proof

theorem State.wf_setCell {s : State} (hm : Memory.wf s.tape) (v : Byte) : Memory.wf (s.setCell v).tape :=
  Memory.wf_write s.p v hm

theorem State.wf_storeAnswer {s : State} (hm : Memory.wf s.tape) (a : InAnswer) :
    Memory.wf (s.storeAnswer a).tape := by
  obtain e | ⟨v, e⟩ := s.storeAnswer_cases a
  · rwa [e]
  · rw [e]; exact State.wf_setCell hm v

/-- An instruction keeps the canonical form of the tape. -/
theorem ExecCase.wf_tape {i : Instr} {s t : State} (c : ExecCase i s t) (hm : Memory.wf s.tape) :
    Memory.wf t.tape := by
  cases c with
  | grow => exact Memory.wf_zeroRange _ _ hm
  | incrVal | decrVal => exact State.wf_setCell hm _
  | readIn => exact State.wf_storeAnswer hm _
  | outOfBounds | move | tapeFull | backStrict | backPermissive | writeOut | writeHeld | readHeld | skip
  | unterminated | push | pushGrow | stackFull | pop | endUnexpected | endIgnored | inert => exact hm

/-- No cell is listed at `len` or above (R28): such a cell does not exist. -/
def TapeInside (s : State) : Prop := ∀ c ∈ s.tape, c.1 < s.len

theorem TapeInside.setCell {s : State} (h : TapeInside s) (hp : s.p < s.len) (v : Byte) :
    TapeInside (s.setCell v) := by
  intro c hc
  obtain rfl | hc := Memory.mem_write hc
  · exact hp
  · exact h c hc

theorem TapeInside.storeAnswer {s : State} (h : TapeInside s) (hp : s.p < s.len) (a : InAnswer) :
    TapeInside (s.storeAnswer a) := by
  obtain e | ⟨v, e⟩ := s.storeAnswer_cases a
  · rwa [e]
  · rw [e]; exact h.setCell hp v

/-- An instruction lists no cell at `len` or above: it writes inside the tape only, and growth lists nothing new. -/
theorem ExecCase.tapeInside {i : Instr} {s t : State} (c : ExecCase i s t) (h : TapeInside s) : TapeInside t := by
  cases c with
  | grow => exact fun c hc => Nat.lt_add_right _ (h c (List.mem_of_mem_filter hc))
  | incrVal hp | decrVal hp => exact h.setCell hp _
  | readIn hp =>
    intro c hc
    rw [State.takeAnswer_len]
    exact (State.storeAnswer_len _ s) ▸ h.storeAnswer hp _ c hc
  | outOfBounds | move | tapeFull | backStrict | backPermissive | writeOut | writeHeld | readHeld | skip
  | unterminated | push | pushGrow | stackFull | pop | endUnexpected | endIgnored | inert => exact h

end Sys2Proof.Machine
end

section
/-! SUPPORT. The invariant of a run under one instruction (10_state.md R21 to R36; 20_memory.md R54, R57, R62): each of
its cases keeps `RunInv`. -/

namespace Sys2Proof.Machine

open Sys2Proof

theorem lt_progLen_of_fetch {s : State} {i : Instr} (hi : fetchInstr s = some i) : s.ip < s.progLen :=
  lt_of_opAt hi

/-- Each open loop starts below `ip` (R62). -/
theorem RunInv.lt_ip {s : State} (h : RunInv s) {v : Nat} (hv : v ∈ s.loops) : v < s.ip :=
  List.rel_of_pairwise_cons h.loopsBelow hv

/-- The open loops rise strictly to the top (R62). -/
theorem RunInv.loops_pairwise {s : State} (h : RunInv s) : s.loops.Pairwise (fun a b => b < a) :=
  h.loopsBelow.of_cons

/-- `ip` moves to a position of the program above the open loops. -/
theorem RunInv.retire {s : State} (h : RunInv s) {pos : Nat} (hle : pos ≤ s.progLen)
    (hbelow : ∀ v ∈ s.loops, v < pos) : RunInv (s.retire pos) :=
  { h with
    ipLe := hle
    loopsBelow := List.pairwise_cons.2 ⟨hbelow, h.loops_pairwise⟩
    heldRead := nofun
    heldWrite := nofun }

theorem RunInv.retire_succ {s : State} (h : RunInv s) (hlt : s.ip < s.progLen) : RunInv (s.retire (s.ip + 1)) :=
  h.retire hlt fun _ hv => Nat.lt_succ_of_lt (h.lt_ip hv)

/-- An incremented pointer that is not `len` is inside the tape where the old one was (R57, R120). -/
theorem State.nextPtr_lt_len {s : State} (hp : s.p < s.len) (hn : s.nextPtr ≠ s.len) : s.nextPtr < s.len := by
  have hle : s.nextPtr ≤ s.p + 1 := Nat.mod_le _ _
  omega

theorem State.nextPtr_lt (s : State) : s.nextPtr < 2 ^ s.hw.ptrWidth := Nat.mod_lt _ (Nat.two_pow_pos _)

theorem State.prevPtr_lt (s : State) : s.prevPtr < 2 ^ s.hw.ptrWidth := Nat.mod_lt _ (Nat.two_pow_pos _)

/-- While a byte is held it is the current cell, so that one is on offer (R34, R36). -/
theorem RunInv.offered {s : State} (h : RunInv s) : s.offered (s.cell s.p) = s.cell s.p :=
  State.offered_eq_self fun v hv => (h.heldWrite v hv).2.2

/-- The stack with `ip` on top, of a LOOP_START that enters its loop (R60, R62). -/
theorem RunInv.push_loopsBelow {s : State} (h : RunInv s) :
    ((s.ip + 1) :: s.ip :: s.loops).Pairwise (fun a b => b < a) :=
  List.pairwise_cons.2 ⟨List.forall_mem_cons.2 ⟨s.ip.lt_succ_self, fun _ hv => (h.lt_ip hv).trans s.ip.lt_succ_self⟩,
    h.loopsBelow⟩

theorem RunInv.push_loopsStarts {s : State} (h : RunInv s) (hi : fetchInstr s = some .loopStart) :
    ∀ v ∈ s.ip :: s.loops, opAt s.hw.opmap s.prog v = some .loopStart :=
  List.forall_mem_cons.2 ⟨hi, h.loopsStarts⟩

/-- Every case of the fetched instruction keeps the invariant of the run. -/
theorem ExecCase.runInv {i : Instr} {s t : State} (c : ExecCase i s t) (h : RunInv s) (hi : fetchInstr s = some i) :
    RunInv t := by
  have hlt : s.ip < s.progLen := lt_progLen_of_fetch hi
  have hnext : RunInv (s.retire (s.ip + 1)) := h.retire_succ hlt
  cases c with
  | outOfBounds | tapeFull | unterminated | stackFull | endUnexpected =>
    exact { h with heldRead := nofun, heldWrite := nofun }
  | move hn =>
    exact { hnext with
      ptrRange := s.nextPtr_lt
      permissiveInside := fun hs => State.nextPtr_lt_len (h.permissiveInside hs) hn
      heldRead := nofun, heldWrite := nofun }
  | grow hn hm =>
    exact { hnext with
      ptrRange := s.nextPtr_lt
      permissiveInside := fun _ => hn ▸ Nat.lt_add_of_pos_right h.stepPos
      lenSteps := Nat.dvd_add_self_right.2 h.lenSteps
      lenLow := Nat.le_add_left _ _
      lenHigh := le_max_of_le_right hm
      heldRead := nofun, heldWrite := nofun }
  | backStrict hs =>
    exact { hnext with
      ptrRange := s.prevPtr_lt
      permissiveInside := fun hp => absurd (hs.symm.trans hp) nofun
      heldRead := nofun, heldWrite := nofun }
  | backPermissive hs =>
    exact { hnext with
      ptrRange := (s.p.sub_le 1).trans_lt h.ptrRange
      permissiveInside := fun _ => (s.p.sub_le 1).trans_lt (h.permissiveInside hs)
      heldRead := nofun, heldWrite := nofun }
  | incrVal | decrVal | writeOut => exact { hnext with heldRead := nofun, heldWrite := nofun }
  | readIn =>
    rw [State.takeAnswer_eq_with_tape]
    exact { hnext with heldRead := nofun, heldWrite := nofun }
  | readHeld hp => exact { h with heldRead := fun _ => ⟨hi, hp⟩, heldWrite := nofun }
  | writeHeld hp =>
    refine { h with heldRead := nofun, heldWrite := ?_ }
    rintro v ⟨⟩
    exact ⟨hi, hp, h.offered⟩
  | skip _ _ hm =>
    obtain ⟨hlt', hend, -⟩ := skipScan_eq_some_iff.1 hm
    exact h.retire (lt_of_opAt hend) fun v hv => Nat.lt_succ_of_lt ((h.lt_ip hv).trans hlt')
  | push _ _ hd =>
    exact { hnext with
      loopsBelow := h.push_loopsBelow
      loopsStarts := h.push_loopsStarts hi
      depthLe := Nat.lt_of_le_of_ne h.depthLe hd
      heldRead := nofun, heldWrite := nofun }
  | pushGrow _ _ hd hm =>
    exact { hnext with
      loopsBelow := h.push_loopsBelow
      loopsStarts := h.push_loopsStarts hi
      depthLe := Nat.add_le_add hd.le h.stepPos
      capSteps := Nat.dvd_add_self_right.2 h.capSteps
      capLow := Nat.le_add_left _ _
      capHigh := le_max_of_le_right hm
      heldRead := nofun, heldWrite := nofun }
  | pop hl =>
    have hloops := h.loops_pairwise
    have hstarts := h.loopsStarts
    have hdepth := h.depthLe
    have htop := h.lt_ip (hl ▸ List.mem_cons_self)
    rw [State.depth, hl] at hdepth
    rw [hl] at hloops hstarts
    exact { h with
      ipLe := (htop.trans hlt).le
      loopsBelow := hloops
      loopsStarts := fun v hv => hstarts v (List.mem_cons_of_mem _ hv)
      depthLe := (Nat.le_succ _).trans hdepth
      heldRead := nofun, heldWrite := nofun }
  | endIgnored | inert => exact hnext

end Sys2Proof.Machine
end

section
/-! SUPPORT. The invariant of the block (10_state.md R31, R36, R37) in its four parts, under one step of the engine. -/

namespace Sys2Proof.Machine

open Sys2Proof

/-- The part of `BlockInv` on STATUS and the FSM (R31, R36, R106). -/
structure ControlInv (s : State) : Prop where
  policyCopy : s.status.policy = s.cfgStrict
  errIff : s.status.err ≠ none ↔ s.status.run = .error
  waitInIff : s.status.waitIn = true ↔ s.fsm = .waitIn
  waitOutIff : s.status.waitOut = true ↔ ∃ v, s.fsm = .waitOut v
  restOutside : s.status.run ≠ .running → s.fsm = .fetch
  boundary : s.fsm = .fetch ∨ s.fsm = .waitIn ∨ ∃ v, s.fsm = .waitOut v

theorem BlockInv.control {s : State} (h : BlockInv s) : ControlInv s := { h with }

theorem BlockInv.of_parts {s : State} (hw : s.hw.wf) (htape : Memory.wf s.tape) (hin : TapeInside s)
    (hc : ControlInv s) (hrun : s.status.run = .running → RunInv s) : BlockInv s :=
  { hc with hwOk := hw, tapeOk := htape, tapeInside := hin, running := hrun }

/-- A run has no error recorded (R31). -/
theorem ControlInv.err_eq_none {s : State} (h : ControlInv s) (hr : s.status.run = .running) : s.status.err = none := by
  by_contra hne
  cases hr.symm.trans (h.errIff.1 hne)

theorem ControlInv.waitIn_eq_false {s : State} (h : ControlInv s) (hf : s.fsm ≠ .waitIn) : s.status.waitIn = false :=
  Bool.eq_false_iff.2 (mt h.waitInIff.1 hf)

theorem ControlInv.waitOut_eq_false {s : State} (h : ControlInv s) (hf : ∀ v, s.fsm ≠ .waitOut v) :
    s.status.waitOut = false :=
  Bool.eq_false_iff.2 fun hw => let ⟨v, hv⟩ := h.waitOutIff.1 hw; hf v hv

/-- At FETCH with no wait bit and ERR consistent the control is sound. -/
theorem ControlInv.of_fetch {s : State} (hf : s.fsm = .fetch) (hp : s.status.policy = s.cfgStrict)
    (he : s.status.err ≠ none ↔ s.status.run = .error) (hin : s.status.waitIn = false)
    (hout : s.status.waitOut = false) : ControlInv s where
  policyCopy := hp
  errIff := he
  waitInIff := by simp [hf, hin]
  waitOutIff := by simp [hf, hout]
  restOutside := fun _ => hf
  boundary := .inl hf

theorem ControlInv.raise {s : State} (h : ControlInv s) (k : ErrKind) (pos : Nat) : ControlInv (s.raise k pos) :=
  .of_fetch rfl h.policyCopy (iff_of_true nofun rfl) rfl rfl

theorem ControlInv.holdIn {s : State} (h : ControlInv s) (hr : s.status.run = .running)
    (hout : s.status.waitOut = false) : ControlInv s.holdIn where
  policyCopy := h.policyCopy
  errIff := h.errIff
  waitInIff := iff_of_true rfl rfl
  waitOutIff := by simp [hout]
  restOutside := fun hn => absurd hr hn
  boundary := .inr (.inl rfl)

theorem ControlInv.holdOut {s : State} (h : ControlInv s) (hr : s.status.run = .running)
    (hin : s.status.waitIn = false) (v : Byte) : ControlInv (s.holdOut v) where
  policyCopy := h.policyCopy
  errIff := h.errIff
  waitInIff := by simp [hin]
  waitOutIff := iff_of_true rfl ⟨v, rfl⟩
  restOutside := fun hn => absurd hr hn
  boundary := .inr (.inr ⟨v, rfl⟩)

/-- What an instruction does to STATUS and the FSM: an error, a hold of READ or of WRITE, or a completion that ends
its own wait and keeps the rest of STATUS. -/
inductive ControlCase : Instr → State → State → Prop
  | raised {i s} (k : ErrKind) : ControlCase i s (s.raise k s.ip)
  | heldIn {s} : ControlCase .read s s.holdIn
  | heldOut {s} (v : Byte) : ControlCase .write s (s.holdOut v)
  | completed {i s t} (hf : t.fsm = .fetch)
      (hs : t.status = { s.status with
        waitIn := if i = .read then false else s.status.waitIn
        waitOut := if i = .write then false else s.status.waitOut }) : ControlCase i s t

theorem ExecCase.controlCase {i : Instr} {s t : State} (c : ExecCase i s t) : ControlCase i s t := by
  cases c with
  | outOfBounds | tapeFull | unterminated | stackFull | endUnexpected => exact .raised _
  | readHeld => exact .heldIn
  | writeHeld => exact .heldOut _
  | readIn => exact .completed rfl (State.takeAnswer_status _ _ _)
  | inert hi =>
    have hread : i ≠ .read := by rintro rfl; cases hi
    have hwrite : i ≠ .write := by rintro rfl; cases hi
    exact .completed rfl (by rw [if_neg hread, if_neg hwrite]; rfl)
  | move | grow | backStrict | backPermissive | incrVal | decrVal | writeOut | skip | push | pushGrow | pop
  | endIgnored => exact .completed rfl rfl

/-- Only READ is held on an input request, so the fetch of another instruction finds no such wait (R33). -/
theorem BlockInv.waitIn_eq_false {s : State} (h : BlockInv s) (hr : s.status.run = .running) {i : Instr}
    (hi : fetchInstr s = some i) (hne : i ≠ .read) : s.status.waitIn = false :=
  h.control.waitIn_eq_false fun hf =>
    hne (Option.some.inj (hi.symm.trans ((h.running hr).heldRead hf).1))

/-- Only WRITE is held on an output byte, so the fetch of another instruction finds no such wait (R34). -/
theorem BlockInv.waitOut_eq_false {s : State} (h : BlockInv s) (hr : s.status.run = .running) {i : Instr}
    (hi : fetchInstr s = some i) (hne : i ≠ .write) : s.status.waitOut = false :=
  h.control.waitOut_eq_false fun v hf =>
    hne (Option.some.inj (hi.symm.trans ((h.running hr).heldWrite v hf).1))

/-- The control stays sound under the fetched instruction. -/
theorem BlockInv.control_of_case {i : Instr} {s t : State} (h : BlockInv s) (hr : s.status.run = .running)
    (hi : fetchInstr s = some i) (hstrict : t.cfgStrict = s.cfgStrict) (c : ControlCase i s t) : ControlInv t := by
  cases c with
  | raised k => exact h.control.raise k s.ip
  | heldIn => exact h.control.holdIn hr (h.waitOut_eq_false hr hi nofun)
  | heldOut v => exact h.control.holdOut hr (h.waitIn_eq_false hr hi nofun) v
  | completed hf hs =>
    have herr : t.status.err ≠ none ↔ t.status.run = .error := by rw [hs]; exact h.errIff
    refine .of_fetch hf ?_ herr ?_ ?_
    · rw [hs, hstrict]; exact h.policyCopy
    · rw [hs]
      exact ite_eq_left_iff.2 (h.waitIn_eq_false hr hi)
    · rw [hs]
      exact ite_eq_left_iff.2 (h.waitOut_eq_false hr hi)

/-- The fetched instruction of a run keeps the invariant. -/
theorem ExecCase.blockInv {i : Instr} {s t : State} (c : ExecCase i s t) (h : BlockInv s)
    (hr : s.status.run = .running) (hi : fetchInstr s = some i) : BlockInv t := by
  obtain ⟨-, hstrict, -, hhw⟩ := c.sameConfig
  exact .of_parts (hhw ▸ h.hwOk) (c.wf_tape h.tapeOk) (c.tapeInside h.tapeInside)
    (h.control_of_case hr hi hstrict c.controlCase) fun _ => c.runInv (h.running hr) hi

/-- At L no instruction is held, and the run ends soundly (R101, R103). -/
theorem BlockInv.finish {s : State} (h : BlockInv s) (hr : s.status.run = .running) (hend : s.ip = s.progLen) :
    BlockInv s.finish := by
  have hnone (i : Instr) : fetchInstr s ≠ some i := fun hi => (lt_progLen_of_fetch hi).ne hend
  have hrun := h.running hr
  have hin := h.control.waitIn_eq_false fun hf => hnone _ (hrun.heldRead hf).1
  have hout := h.control.waitOut_eq_false fun v hf => hnone _ (hrun.heldWrite v hf).1
  refine .of_parts h.hwOk h.tapeOk h.tapeInside (.of_fetch rfl h.policyCopy ?_ hin hout) nofun
  exact iff_of_false (not_not.2 (h.control.err_eq_none hr)) nofun

/-- Settles O49: a step rests, ends the run (`BlockInv.finish`), or runs the fetched instruction, each of whose cases
keeps the four parts of the invariant (`ExecCase.blockInv`). -/
theorem stepKeepsInvariant : Obligations.StepKeepsInvariant := by
  intro s t hinv h
  obtain ⟨-, rfl⟩ | ⟨hr, hend, rfl⟩ | ⟨hr, -, i, hi, hx⟩ := step_next_cases h
  · exact hinv
  · exact hinv.finish hr hend
  · exact (exec_next_cases hx).blockInv hinv hr hi

end Sys2Proof.Machine
end


section
/-! SUPPORT. The host's actions outside a run (10_state.md R35; 70_reset_and_hazards.md R210): START by its two checks,
and each action on the invariant. -/

namespace Sys2Proof.Machine

open Sys2Proof

theorem runStart_of_step_zero {s : State} (h : s.stepIn = 0) :
    runStart s = s.sampleInputs.raise .invalidMemoryStepSize 0 :=
  if_pos h

theorem runStart_of_too_large {s : State} (h : s.stepIn ≠ 0) (hn : s.hw.progMax < s.prog.length) :
    runStart s = s.sampleInputs.raise .programTooLarge 0 :=
  (if_neg h).trans (if_pos hn)

theorem runStart_of_checks {s : State} (h : s.stepIn ≠ 0) (hn : s.prog.length ≤ s.hw.progMax) :
    runStart s = s.sampleInputs.initRun :=
  (if_neg h).trans (if_neg (Nat.not_lt.2 hn))

/-- `RunStart()` (R210): a start error, or the run is initialised with both checks passed. -/
theorem runStart_cases (s : State) :
    (∃ k, runStart s = s.sampleInputs.raise k 0) ∨
      (1 ≤ s.stepIn ∧ s.prog.length ≤ s.hw.progMax ∧ runStart s = s.sampleInputs.initRun) := by
  by_cases h : s.stepIn = 0
  · exact .inl ⟨_, runStart_of_step_zero h⟩
  · by_cases hn : s.hw.progMax < s.prog.length
    · exact .inl ⟨_, runStart_of_too_large h hn⟩
    · exact .inr ⟨Nat.one_le_iff_ne_zero.2 h, Nat.not_lt.1 hn, runStart_of_checks h (Nat.not_lt.1 hn)⟩

theorem hostAct_start_of_not_running {s : State} (hr : s.status.run ≠ .running) :
    hostAct .start s = .next (runStart s) :=
  congrArg Host.Outcome.next (if_neg hr)

/-- Everything a host action can do outside a run: load, set an input, start, or act on a channel (R33 to R35). -/
theorem hostAct_next_of_not_running {a : HostAct} {s t : State} (hr : s.status.run ≠ .running)
    (h : hostAct a s = .next t) :
    (∃ bytes n b, t = { s with prog := bytes, stepIn := n, strictIn := b }) ∨
      (a = .start ∧ t = runStart s) ∨
      (∃ answers ready, t = { s with inAnswers := answers, outReady := ready }) := by
  cases a with
  | load bytes => exact .inl ⟨bytes, _, _, (next_eq_next_iff.1 h).trans (if_neg hr)⟩
  | setStep n =>
    rw [hostAct, hostSetStep, if_neg hr] at h
    split at h
    · exact .inl ⟨_, n, _, next_eq_next_iff.1 h⟩
    · cases h
  | setStrict b => exact .inl ⟨_, _, b, (next_eq_next_iff.1 h).trans (if_neg hr)⟩
  | start => exact .inr (.inl ⟨rfl, (next_eq_next_iff.1 h).trans (if_neg hr)⟩)
  | answer x => exact .inr (.inr ⟨_, _, next_eq_next_iff.1 h⟩)
  | setOutReady b => exact .inr (.inr ⟨_, _, next_eq_next_iff.1 h⟩)

/-- The invariant does not look at the channels' host side (R33, R34). -/
theorem BlockInv.channels {s : State} (h : BlockInv s) (answers : List InAnswer) (ready : Bool) :
    BlockInv { s with inAnswers := answers, outReady := ready } :=
  { h with running := fun hr => { h.running hr with } }

/-- Outside a run the invariant does not look at the program store and the inputs (R35). -/
theorem BlockInv.inputs {s : State} (h : BlockInv s) (hr : s.status.run ≠ .running) (bytes : List Byte) (n : Nat)
    (b : Bool) : BlockInv { s with prog := bytes, stepIn := n, strictIn := b } :=
  { h with running := fun hrun => absurd hrun hr }

theorem BlockInv.sampleInputs {s : State} (h : BlockInv s) (hr : s.status.run ≠ .running) :
    BlockInv s.sampleInputs :=
  { h with policyCopy := rfl, running := fun hrun => absurd hrun hr }

theorem BlockInv.raise {s : State} (h : BlockInv s) (k : ErrKind) (pos : Nat) : BlockInv (s.raise k pos) :=
  .of_parts h.hwOk h.tapeOk h.tapeInside (h.control.raise k pos) nofun

/-- A run begins at the start of the program, on one tape step of zeros, with no loop open (R210). -/
theorem State.runInv_initRun {s : State} (hstep : 1 ≤ s.cfgStep) (hfits : s.prog.length ≤ s.hw.progMax) :
    RunInv s.initRun where
  stepPos := hstep
  progFits := hfits
  ipLe := Nat.zero_le _
  ptrRange := Nat.two_pow_pos _
  permissiveInside := fun _ => hstep
  lenSteps := Nat.dvd_refl _
  lenLow := Nat.le_refl _
  lenHigh := Nat.le_max_left _ _
  loopsBelow := List.pairwise_singleton _ 0
  loopsStarts := nofun
  depthLe := Nat.zero_le _
  capSteps := Nat.dvd_refl _
  capLow := Nat.le_refl _
  capHigh := Nat.le_max_left _ _
  heldRead := nofun
  heldWrite := nofun

theorem BlockInv.initRun {s : State} (h : BlockInv s) (hstep : 1 ≤ s.cfgStep)
    (hfits : s.prog.length ≤ s.hw.progMax) : BlockInv s.initRun :=
  .of_parts h.hwOk Memory.wf_nil nofun (.of_fetch rfl h.policyCopy (iff_of_false (not_not.2 rfl) nofun) rfl rfl)
    fun _ => State.runInv_initRun hstep hfits

/-- A START outside a run keeps the invariant, with its checks passed or not. -/
theorem BlockInv.runStart {s : State} (h : BlockInv s) (hr : s.status.run ≠ .running) : BlockInv (runStart s) := by
  obtain ⟨k, e⟩ | ⟨hstep, hfits, e⟩ := runStart_cases s
  · rw [e]; exact (h.sampleInputs hr).raise k 0
  · rw [e]; exact (h.sampleInputs hr).initRun hstep hfits

/-- Settles O50: during a run only the channels are reached (`hostAct_next_of_running`), and outside one the inputs, the
channels, or START (`hostAct_next_of_not_running`), each of which keeps the invariant. -/
theorem hostActionKeepsInvariant : Obligations.HostActionKeepsInvariant := by
  intro a s t hinv h
  by_cases hr : s.status.run = .running
  · obtain ⟨x, -, rfl⟩ | ⟨b, -, rfl⟩ | rfl := hostAct_next_of_running hr h
    · exact hinv.channels _ _
    · exact hinv.channels _ _
    · exact hinv
  · obtain ⟨bytes, n, b, rfl⟩ | ⟨-, rfl⟩ | ⟨answers, ready, rfl⟩ := hostAct_next_of_not_running hr h
    · exact hinv.inputs hr bytes n b
    · exact hinv.runStart hr
    · exact hinv.channels answers ready

end Sys2Proof.Machine
end

section
/-! SUPPORT. Progress, and what every reachable state meets (00_scope.md section 4; 20_memory.md R57; decision D21). -/

namespace Sys2Proof.Machine

open Sys2Proof

/-- An instruction answers a next state unless it is a permissive access outside the tape (R52, D21). -/
theorem exec_next_of_inside {i : Instr} {s : State} (h : s.cfgStrict = false → s.p < s.len) :
    ∃ t, exec i s = .next t := by
  by_cases hi : i.opClass ∈ [.incrVal, .decrVal, .write, .read, .loopStart]
  · obtain ⟨act, e⟩ := exec_accessing hi s
    rw [e]
    by_cases hp : s.p < s.len
    · exact ⟨_, accessCell_inBounds hp⟩
    · exact ⟨_, accessCell_strict hp (Bool.not_eq_false _ ▸ mt h hp)⟩
  · exact exec_not_accessing hi s

/-- Settles O51: in a sound run `ip` is at L or at an instruction, and `p` is inside the tape in permissive mode. -/
theorem invariantRulesOutFault : Obligations.InvariantRulesOutFault := by
  intro s hinv
  by_cases hr : s.status.run = .running
  · have hrun := hinv.running hr
    obtain hend | hlt := hrun.ipLe.eq_or_lt
    · exact ⟨_, step_of_end hr hend⟩
    · obtain ⟨i, hi⟩ := exists_opAt s.hw.opmap hlt
      rw [step_of_instr hr hi]
      exact exec_next_of_inside hrun.permissiveInside
  · exact ⟨s, step_of_not_running hr⟩

/-- At power-on every part of the invariant that speaks of the block outside a run holds (R211). -/
theorem blockInv_powerOn {hw : Params} (h : hw.wf) : BlockInv (State.powerOn hw) :=
  .of_parts h Memory.wf_nil nofun (.of_fetch rfl rfl (iff_of_false (not_not.2 rfl) nofun) rfl rfl) nofun

/-- The parameters of `State.reset` meet their constraints (log 2), whatever its EOF_POLICY. -/
theorem Config.params_wf : Config.params.wf := by
  refine ⟨?_, ?_, ?_⟩
  · change OpMap.default.toList.Nodup; decide
  · change 65535 < 2 ^ 16; decide
  · change 2 * 32767 < 2 ^ 16; decide

/-- Settles O8: `blockInv_powerOn`, of which `State.reset` is the case of its own parameters. -/
theorem powerOnMeetsInvariant : Obligations.PowerOnMeetsInvariant :=
  ⟨blockInv_powerOn Config.params_wf, fun _ => blockInv_powerOn⟩

/-- Settles O7: the reset values of STATUS, ERR_IP and CFG_STRICT, read off `State.reset`. -/
theorem powerOnStatusIsZero : Obligations.PowerOnStatusIsZero :=
  ⟨rfl, rfl, rfl, rfl⟩

/-- What each event of a list keeps holds at its end. -/
theorem onEvents_keep {P : State → Prop} {events : List Event}
    (hkeep : ∀ e ∈ events, ∀ s t, P s → onEvent e s = .next t → P t) {s t : State} (hs : P s)
    (h : onEvents events s = .next t) : P t := by
  induction events generalizing s with
  | nil => exact next_eq_next_iff.1 h ▸ hs
  | cons e rest ih =>
    rw [List.forall_mem_cons] at hkeep
    rw [onEvents] at h
    split at h
    · next u hu => exact ih hkeep.2 (hkeep.1 s u hs hu) h
    · cases h
    · cases h

/-- Where each event keeps `P` and no event faults under `P`, no list of events faults. -/
theorem onEvents_ne_fault {P : State → Prop} (hkeep : ∀ e s t, P s → onEvent e s = .next t → P t)
    (hfault : ∀ e s f, P s → onEvent e s ≠ .fault f) (events : List Event) {s : State} (hs : P s) (f : Fault) :
    onEvents events s ≠ .fault f := by
  induction events generalizing s with
  | nil => nofun
  | cons e rest ih =>
    rw [onEvents]
    split
    · next u hu => exact ih (hkeep e s u hs hu)
    · next f' hf => exact absurd hf (hfault e s f' hs)
    · nofun

theorem blockInv_onEvent (e : Event) (s t : State) (h : BlockInv s) (ht : onEvent e s = .next t) : BlockInv t := by
  cases e with
  | engine => exact stepKeepsInvariant s t h ht
  | host a => exact hostActionKeepsInvariant a s t h ht

/-- A host action is never a fault: it answers a state, or refuses a STEP that is too wide (R213; log 16). -/
theorem hostAct_ne_fault (a : HostAct) (s : State) (f : Fault) : hostAct a s ≠ .fault f := by
  cases a with
  | setStep n =>
    change hostSetStep n s ≠ _
    unfold hostSetStep
    split
    · nofun
    · split <;> nofun
  | load | setStrict | start | answer | setOutReady => nofun

theorem onEvent_ne_fault_of_blockInv (e : Event) (s : State) (f : Fault) (h : BlockInv s) :
    onEvent e s ≠ .fault f := by
  cases e with
  | engine =>
    obtain ⟨t, ht⟩ := invariantRulesOutFault s h
    intro hf
    cases ht.symm.trans hf
  | host a => exact hostAct_ne_fault a s f

/-- Settles O52: the invariant holds at power-on, each event keeps it (`blockInv_onEvent`), and under it none faults
(`onEvent_ne_fault_of_blockInv`); the inductions over the events are `onEvents_keep` and `onEvents_ne_fault`. -/
theorem reachableStatesAreSound : Obligations.ReachableStatesAreSound := by
  intro hw hwf
  have hstart := blockInv_powerOn hwf
  refine ⟨fun events => onEvents_ne_fault blockInv_onEvent onEvent_ne_fault_of_blockInv events hstart, ?_⟩
  rintro s ⟨events, h⟩
  exact onEvents_keep (fun e _ => blockInv_onEvent e) hstart h

end Sys2Proof.Machine
end

section
/-! SUPPORT. The canonical form of the tape over every event (20_memory.md section 2; log 22), in every state. -/

namespace Sys2Proof.Machine

open Sys2Proof

theorem step_wf_tape {s t : State} (hm : Memory.wf s.tape) (h : step s = .next t) : Memory.wf t.tape := by
  obtain ⟨-, rfl⟩ | ⟨-, -, rfl⟩ | ⟨-, -, i, -, hx⟩ := step_next_cases h
  · exact hm
  · exact hm
  · exact (exec_next_cases hx).wf_tape hm

theorem runStart_wf_tape {s : State} (hm : Memory.wf s.tape) : Memory.wf (runStart s).tape := by
  obtain ⟨k, e⟩ | ⟨-, -, e⟩ := runStart_cases s
  · rw [e]; exact hm
  · rw [e]; exact Memory.wf_nil

theorem hostAct_wf_tape {a : HostAct} {s t : State} (hm : Memory.wf s.tape) (h : hostAct a s = .next t) :
    Memory.wf t.tape := by
  by_cases hr : s.status.run = .running
  · obtain ⟨x, -, rfl⟩ | ⟨b, -, rfl⟩ | rfl := hostAct_next_of_running hr h
    · exact hm
    · exact hm
    · exact hm
  · obtain ⟨bytes, n, b, rfl⟩ | ⟨-, rfl⟩ | ⟨answers, ready, rfl⟩ := hostAct_next_of_not_running hr h
    · exact hm
    · exact runStart_wf_tape hm
    · exact hm

/-- Settles O53: the engine's step by the cases of its instruction (`step_wf_tape`), a host action by START, which alone
of them writes the tape (`hostAct_wf_tape`). -/
theorem tapeKeepsCanonicalForm : Obligations.TapeKeepsCanonicalForm := by
  intro e s t hm h
  cases e with
  | engine => exact step_wf_tape hm h
  | host a => exact hostAct_wf_tape hm h

end Sys2Proof.Machine
end

section
/-! SUPPORT. Run start (70_reset_and_hazards.md section 1; decisions D7, D16, D20): its values, its checks, and what of
an earlier run it reads. -/

namespace Sys2Proof.Machine

open Sys2Proof

/-- Settles O9: with its checks passed START is `initRun` of the sampled inputs (`runStart_of_checks`), on an empty
list of cells. -/
theorem startInitialisesRun : Obligations.StartInitialisesRun := by
  intro s hr hstep hfits
  refine ⟨_, hostAct_start_of_not_running hr, ?_, fun a => ?_⟩
  · rw [runStart_of_checks (Nat.one_le_iff_ne_zero.1 hstep) hfits]
    rfl
  · rw [runStart_of_checks (Nat.one_le_iff_ne_zero.1 hstep) hfits]
    exact Memory.read_nil a

/-- The start error of R184 and R186, the check of STEP first (R189). -/
theorem runStart_of_check_fails {s : State} (h : s.stepIn = 0 ∨ s.hw.progMax < s.prog.length) :
    runStart s = s.sampleInputs.raise (if s.stepIn = 0 then .invalidMemoryStepSize else .programTooLarge) 0 := by
  by_cases hz : s.stepIn = 0
  · rw [if_pos hz, runStart_of_step_zero hz]
  · rw [if_neg hz, runStart_of_too_large hz (h.resolve_left hz)]

/-- Settles O10: a START whose checks fail is `raise` of the sampled inputs (`runStart_of_check_fails`), which keeps the
engine's state. -/
theorem startChecksStepThenSize : Obligations.StartChecksStepThenSize := by
  intro s hr hfails
  refine ⟨_, hostAct_start_of_not_running hr, ?_⟩
  rw [runStart_of_check_fails hfails]
  exact ⟨rfl, rfl, rfl, rfl, rfl, rfl, rfl, rfl, rfl, rfl, rfl, rfl, rfl, rfl, rfl⟩

/-- A run's first state is a function of the parameters, the program, the inputs and the channels. -/
theorem initRun_sampleInputs_congr {s t : State} (hhw : t.hw = s.hw) (hprog : t.prog = s.prog)
    (hstep : t.stepIn = s.stepIn) (hstrict : t.strictIn = s.strictIn) (hin : t.inAnswers = s.inAnswers)
    (hout : t.outReady = s.outReady) : s.sampleInputs.initRun = t.sampleInputs.initRun := by
  simp only [State.sampleInputs, State.initRun, hhw, hprog, hstep, hstrict, hin, hout]

/-- Settles O12: both blocks pass the checks, and the state they start into reads nothing else
(`initRun_sampleInputs_congr`). -/
theorem noStateCarriesIntoNextRun : Obligations.NoStateCarriesIntoNextRun := by
  intro s t hs ht hhw hprog hstep hstrict hin hout hpos hfits
  have hne : s.stepIn ≠ 0 := Nat.one_le_iff_ne_zero.1 hpos
  rw [hostAct_start_of_not_running hs, hostAct_start_of_not_running ht, runStart_of_checks hne hfits,
    runStart_of_checks (hstep ▸ hne) (hprog ▸ hhw ▸ hfits),
    initRun_sampleInputs_congr hhw hprog hstep hstrict hin hout]

end Sys2Proof.Machine
end

section
/-! SUPPORT. RUN over one event (40_dispatch.md R100; decisions D10, D19), and an ended run over many
(60_exceptions.md section 4; decision D14). -/

namespace Sys2Proof.Machine

open Sys2Proof

/-- A host action keeps RUN, but for a START outside a run, which starts it or takes a start error. -/
theorem hostAct_run {a : HostAct} {s t : State} (h : hostAct a s = .next t) :
    t.status.run = s.status.run ∨
      (a = .start ∧ s.status.run ≠ .running ∧ (t.status.run = .running ∨ t.status.run = .error)) := by
  by_cases hr : s.status.run = .running
  · obtain ⟨x, -, rfl⟩ | ⟨b, -, rfl⟩ | rfl := hostAct_next_of_running hr h
    · exact .inl rfl
    · exact .inl rfl
    · exact .inl rfl
  · obtain ⟨bytes, n, b, rfl⟩ | ⟨ha, rfl⟩ | ⟨answers, ready, rfl⟩ := hostAct_next_of_not_running hr h
    · exact .inl rfl
    · refine .inr ⟨ha, hr, ?_⟩
      obtain ⟨k, e⟩ | ⟨-, -, e⟩ := runStart_cases s
      · rw [e]; exact .inr rfl
      · rw [e]; exact .inl rfl
    · exact .inl rfl

/-- A step of a run ends it in DONE at `ip == L`, and elsewhere keeps RUN or ends in ERROR. -/
theorem step_run {s t : State} (hr : s.status.run = .running) (h : step s = .next t) :
    (s.ip = s.progLen ∧ t.status.run = .done) ∨
      (s.ip ≠ s.progLen ∧ (t.status.run = s.status.run ∨ t.status.run = .error)) := by
  obtain ⟨hnr, -⟩ | ⟨-, hend, rfl⟩ | ⟨-, hend, i, -, hx⟩ := step_next_cases h
  · exact absurd hr hnr
  · exact .inl ⟨hend, rfl⟩
  · obtain ⟨k, -, rfl⟩ | ⟨hrun, -⟩ := (exec_next_cases hx).raises_or_keeps_run_err
    · exact .inr ⟨hend, .inr rfl⟩
    · exact .inr ⟨hend, .inl hrun⟩

/-- Settles O14: the host's transitions are `hostAct_run`, the engine's `step_run`; outside a run the engine rests. -/
theorem runMovesOnlyAlongItsTransitions : Obligations.RunMovesOnlyAlongItsTransitions := by
  intro e s t h
  cases e with
  | host a =>
    refine ⟨?_, nofun⟩
    obtain hkeep | ⟨rfl, hr, hto⟩ := hostAct_run h
    · exact .inl hkeep
    · exact .inr (.inl ⟨rfl, hr, hto⟩)
  | engine =>
    by_cases hr : s.status.run = .running
    · obtain ⟨hend, hdone⟩ | ⟨hend, hkeep | herror⟩ := step_run hr h
      · exact ⟨.inr (.inr ⟨rfl, hr, .inl hdone⟩), fun _ _ => iff_of_true hdone hend⟩
      · exact ⟨.inl hkeep, fun _ _ => iff_of_false (by rw [hkeep, hr]; nofun) hend⟩
      · exact ⟨.inr (.inr ⟨rfl, hr, .inr herror⟩), fun _ _ => iff_of_false (by rw [herror]; nofun) hend⟩
    · obtain rfl : t = s := next_eq_next_iff.1 ((step_of_not_running hr).symm.trans h)
      exact ⟨.inl rfl, fun _ hr' => absurd hr' hr⟩

/-- What the end of a run leaves (R37, R188): STATUS, ERR_IP, the engine's state and the records of the run. -/
def SameEnd (s t : State) : Prop :=
  t.status = s.status ∧ t.errIp = s.errIp ∧ t.ip = s.ip ∧ t.p = s.p ∧ t.len = s.len ∧ t.tape = s.tape ∧
    t.loops = s.loops ∧ t.cap = s.cap ∧ t.output = s.output ∧ t.inTaken = s.inTaken

theorem SameEnd.refl (s : State) : SameEnd s s := ⟨rfl, rfl, rfl, rfl, rfl, rfl, rfl, rfl, rfl, rfl⟩

/-- Outside a run no event but START changes what the end left. -/
theorem onEvent_sameEnd {e : Event} {s u v : State} (he : e ≠ .host .start) (hr : s.status.run ≠ .running)
    (hu : SameEnd s u) (h : onEvent e u = .next v) : SameEnd s v := by
  have hru : u.status.run ≠ .running := by rwa [hu.1]
  cases e with
  | engine =>
    obtain rfl : v = u := next_eq_next_iff.1 ((step_of_not_running hru).symm.trans h)
    exact hu
  | host a =>
    obtain ⟨bytes, n, b, rfl⟩ | ⟨rfl, -⟩ | ⟨answers, ready, rfl⟩ := hostAct_next_of_not_running hru h
    · exact hu
    · exact absurd rfl he
    · exact hu

/-- Settles O36: an ended run is no run, so each event but START keeps what the end left (`onEvent_sameEnd`), and so
does a list of them (`onEvents_keep`). -/
theorem endedRunStaysFrozen : Obligations.EndedRunStaysFrozen := by
  intro events s t hstart hended h
  have hr : s.status.run ≠ .running := by
    obtain hd | hd := hended
    · rw [hd]; nofun
    · rw [hd]; nofun
  refine onEvents_keep (P := SameEnd s) (fun e he u v hu => ?_) (.refl s) h
  exact onEvent_sameEnd (fun heq => hstart (heq ▸ he)) hr hu

end Sys2Proof.Machine
end


section
/-! SUPPORT. Several steps of one machine: iterations chained, and what each step keeps kept by all of them. -/

namespace Sys2Proof.Machine

open Sys2Proof

theorem iterate_succ {f : State → Result} {s t : State} (h : f s = .next t) (k : Nat) :
    iterate f (k + 1) s = iterate f k t := by
  rw [iterate, h]

theorem iterate_one (f : State → Result) (s : State) : iterate f 1 s = f s := by
  rw [iterate]
  split <;> simp [iterate, *]

theorem iterate_add {f : State → Result} {j : Nat} {s t : State} (h : iterate f j s = .next t) (k : Nat) :
    iterate f (j + k) s = iterate f k t := by
  induction j generalizing s with
  | zero => rw [next_eq_next_iff.1 h, Nat.zero_add]
  | succ j ih =>
    rw [iterate] at h
    split at h
    · next u hu => rw [Nat.succ_add, iterate_succ hu, ih h]
    · cases h
    · cases h

/-- What one application keeps holds after any number of them. -/
theorem iterate_keep {f : State → Result} {P : State → Prop} (hkeep : ∀ s t, P s → f s = .next t → P t)
    {k : Nat} {s t : State} (hs : P s) (h : iterate f k s = .next t) : P t := by
  induction k generalizing s with
  | zero => exact next_eq_next_iff.1 h ▸ hs
  | succ k ih =>
    rw [iterate] at h
    split at h
    · next u hu => exact ih (hkeep s u hs hu) h
    · cases h
    · cases h

/-- A run of one more step, by its first step. -/
theorem runFor_succ {s t : State} (h : step s = .next t) (k : Nat) : runFor (k + 1) s = runFor k t :=
  iterate_succ h k

theorem runFor_add {j : Nat} {s t : State} (h : runFor j s = .next t) (k : Nat) :
    runFor (j + k) s = runFor k t :=
  iterate_add h k

end Sys2Proof.Machine
end

section
/-! SUPPORT. What grows during a run (20_memory.md R54, R60): the tape by whole steps, and the loop stack's capacity;
the configuration stays. -/

namespace Sys2Proof.Machine

open Sys2Proof

/-- One instruction keeps `len` or adds STEP to it (R53). -/
theorem ExecCase.len_grows {i : Instr} {s t : State} (c : ExecCase i s t) : ∃ n, t.len = s.len + n * s.cfgStep := by
  obtain h | ⟨-, -, h⟩ := c.len_eq_or_grewTape
  · exact ⟨0, by rw [h, Nat.zero_mul, Nat.add_zero]⟩
  · exact ⟨1, by rw [h, Nat.one_mul]⟩

theorem step_len_grows {s t : State} (h : step s = .next t) : ∃ n, t.len = s.len + n * s.cfgStep := by
  obtain ⟨-, rfl⟩ | ⟨-, -, rfl⟩ | ⟨-, -, i, -, hx⟩ := step_next_cases h
  · exact ⟨0, by rw [Nat.zero_mul, Nat.add_zero]⟩
  · exact ⟨0, by rw [Nat.zero_mul, Nat.add_zero, State.finish_len]⟩
  · exact (exec_next_cases hx).len_grows

/-- The configuration of `s`, and a tape longer by whole steps. -/
def GrownBySteps (s t : State) : Prop := SameConfig s t ∧ ∃ n, t.len = s.len + n * s.cfgStep

theorem SameConfig.trans {s t u : State} (h : SameConfig s t) (h' : SameConfig t u) : SameConfig s u := by
  obtain ⟨h1, h2, h3, h4⟩ := h
  obtain ⟨h1', h2', h3', h4'⟩ := h'
  exact ⟨h1'.trans h1, h2'.trans h2, h3'.trans h3, h4'.trans h4⟩

theorem GrownBySteps.step {s t u : State} (h : GrownBySteps s t) (hu : step t = .next u) : GrownBySteps s u := by
  obtain ⟨hc, n, hn⟩ := h
  obtain ⟨m, hm⟩ := step_len_grows hu
  refine ⟨hc.trans (step_sameConfig hu), n + m, ?_⟩
  rw [hm, hn, hc.1, Nat.add_mul, Nat.add_assoc]

/-- Settles O55: each step keeps CFG_STEP and adds none or one STEP to `len` (`GrownBySteps.step`), and so do `k` of
them (`iterate_keep`). -/
theorem tapeGrowsInWholeSteps : Obligations.TapeGrowsInWholeSteps := by
  intro k s t h
  have hs : GrownBySteps s s := ⟨.refl s, 0, by rw [Nat.zero_mul, Nat.add_zero]⟩
  exact (iterate_keep (P := GrownBySteps s) (fun _ _ => GrownBySteps.step) hs h).2

/-- Neither the tape nor the loop stack's capacity shrinks. -/
def NoShrink (s t : State) : Prop := SameConfig s t ∧ s.len ≤ t.len ∧ s.cap ≤ t.cap

theorem NoShrink.refl (s : State) : NoShrink s s := ⟨.refl s, le_rfl, le_rfl⟩

theorem NoShrink.trans {s t u : State} (h : NoShrink s t) (h' : NoShrink t u) : NoShrink s u :=
  ⟨h.1.trans h'.1, h.2.1.trans h'.2.1, h.2.2.trans h'.2.2⟩

theorem ExecCase.cap_le {i : Instr} {s t : State} (c : ExecCase i s t) : s.cap ≤ t.cap := by
  cases c with
  | pushGrow => exact Nat.le_add_right _ _
  | readIn => rw [State.takeAnswer_cap]
  | outOfBounds | move | grow | tapeFull | backStrict | backPermissive | incrVal | decrVal | writeOut | writeHeld
  | readHeld | skip | unterminated | push | stackFull | pop | endUnexpected | endIgnored | inert => exact le_rfl

theorem step_noShrink {s t : State} (h : step s = .next t) : NoShrink s t := by
  obtain ⟨n, hn⟩ := step_len_grows h
  refine ⟨step_sameConfig h, hn ▸ Nat.le_add_right _ _, ?_⟩
  obtain ⟨-, rfl⟩ | ⟨-, -, rfl⟩ | ⟨-, -, i, -, hx⟩ := step_next_cases h
  · exact le_rfl
  · exact le_rfl
  · exact (exec_next_cases hx).cap_le

theorem runFor_noShrink {k : Nat} {s t : State} (h : runFor k s = .next t) : NoShrink s t :=
  iterate_keep (P := NoShrink s) (fun _ _ hu hv => hu.trans (step_noShrink hv)) (.refl s) h

end Sys2Proof.Machine
end

section
/-! SUPPORT. Runs that stay inside a loop, and how often they stand at its LOOP_END (44_loop.md R153). -/

namespace Sys2Proof.Machine

open Sys2Proof

/-- Two runs inside the bounds, one after the other. -/
theorem RunsWithin.trans {lo hi j k : Nat} {s t u : State} (h : RunsWithin lo hi j s t)
    (h' : RunsWithin lo hi k t u) : RunsWithin lo hi (j + k) s u := by
  obtain ⟨hrun, hin⟩ := h
  obtain ⟨hrun', hin'⟩ := h'
  refine ⟨(runFor_add hrun k).trans hrun', fun i hi v hv => ?_⟩
  obtain hij | hji := Nat.le_total i j
  · exact hin i hij v hv
  · obtain ⟨d, rfl⟩ := Nat.exists_eq_add_of_le hji
    exact hin' d (by omega) v ((runFor_add hrun d).symm.trans hv)

theorem RunsWithin.refl {lo hi : Nat} {s : State} (hlo : lo ≤ s.ip) (hhi : s.ip ≤ hi) : RunsWithin lo hi 0 s s := by
  refine ⟨rfl, fun i hi v hv => ?_⟩
  obtain rfl := Nat.le_zero.1 hi
  exact next_eq_next_iff.1 hv ▸ ⟨hlo, hhi⟩

theorem RunsWithin.one {lo hi : Nat} {s t : State} (h : step s = .next t) (hs : lo ≤ s.ip ∧ s.ip ≤ hi)
    (ht : lo ≤ t.ip ∧ t.ip ≤ hi) : RunsWithin lo hi 1 s t := by
  have hrun : runFor 1 s = .next t := (iterate_one step s).trans h
  refine ⟨hrun, fun i hi v hv => ?_⟩
  obtain rfl | rfl := Nat.le_one_iff_eq_zero_or_eq_one.1 hi
  · exact next_eq_next_iff.1 hv ▸ hs
  · exact next_eq_next_iff.1 (hrun.symm.trans hv) ▸ ht

/-- The visits of a first run and of the run that goes on from its end. -/
theorem visits_add {pos j : Nat} {s t : State} (h : runFor j s = .next t) (k : Nat) :
    visits pos (j + k) s = visits pos j s + visits pos k t := by
  induction j generalizing s with
  | zero => rw [next_eq_next_iff.1 h, Nat.zero_add, visits, Nat.zero_add]
  | succ j ih =>
    rw [runFor, iterate] at h
    split at h
    · next u hu =>
      rw [Nat.succ_add, visits, visits, hu]
      simp only
      rw [ih h, Nat.add_assoc]
    · cases h
    · cases h

/-- A run that never starts a step at `pos` does not visit it. -/
theorem visits_eq_zero {pos k : Nat} {s : State} (h : ∀ i < k, ∀ u, runFor i s = .next u → u.ip ≠ pos) :
    visits pos k s = 0 := by
  induction k generalizing s with
  | zero => rfl
  | succ k ih =>
    rw [visits, if_neg (h 0 k.succ_pos s rfl), Nat.zero_add]
    split
    · next t ht => exact ih fun i hi u hu => h (i + 1) (Nat.succ_lt_succ hi) u ((runFor_succ ht i).trans hu)
    · rfl
    · rfl

theorem visits_one {pos : Nat} {s t : State} (h : step s = .next t) :
    visits pos 1 s = if s.ip = pos then 1 else 0 := by
  rw [visits, h]
  rfl

end Sys2Proof.Machine
end

section
/-! SUPPORT. The loop law (44_loop.md R153): one pass from LOOP_START back to it lowers the cell by one and executes
LOOP_END once; as many passes as the cell holds lead behind the loop. -/

namespace Sys2Proof.Machine

open Sys2Proof

/-- The state behind a LOOP_START that entered its loop (R150). -/
structure EntersLoop (u b : State) : Prop where
  step : step u = .next b
  status : b.status = u.status
  ip : b.ip = u.ip + 1
  p : b.p = u.p
  loops : b.loops = u.ip :: u.loops
  tape : b.tape = u.tape
  room : u.depth < b.cap

/-- `u` stands at the LOOP_START that `s` stands at, with the same pointer and stack and whatever the run between them
grew. -/
structure BackAtLoop (s u : State) : Prop where
  run : u.status.run = .running
  ip : u.ip = s.ip
  p : u.p = s.p
  loops : u.loops = s.loops
  noShrink : NoShrink s u
  depthLe : u.depth ≤ u.cap
  canPush : u.cell u.p ≠ 0 → (pushLoop u.ip u).isSome

/-- LOOP_START on a non-zero cell that can push enters the loop. -/
theorem entersLoop_of_canPush {u : State} (hr : u.status.run = .running) (hi : fetchInstr u = some .loopStart)
    (hp : u.p < u.len) (hz : u.cell u.p ≠ 0) (hstep : 1 ≤ u.cfgStep) (hd : u.depth ≤ u.cap)
    (hpush : (pushLoop u.ip u).isSome) : ∃ b, EntersLoop u b := by
  obtain ⟨v, hv⟩ := Option.isSome_iff_exists.1 hpush
  obtain ⟨hne, -⟩ | ⟨heq, hmax, -⟩ := pushLoop_eq_some.1 hv
  · exact ⟨_, (step_of_instr hr hi).trans (exec_of_case (.push hp hz hne)), rfl, rfl, rfl, rfl, rfl,
      Nat.lt_of_le_of_ne hd hne⟩
  · exact ⟨_, (step_of_instr hr hi).trans (exec_of_case (.pushGrow hp hz heq hmax)), rfl, rfl, rfl, rfl, rfl,
      heq ▸ Nat.lt_add_of_pos_right hstep⟩

theorem EntersLoop.cell {u b : State} (h : EntersLoop u b) : b.cell b.p = u.cell u.p := by
  rw [State.cell, h.tape, h.p]
  rfl

section
variable {s u b : State} {e : Nat}

theorem BackAtLoop.enter_ip (h : BackAtLoop s u) (hb : EntersLoop u b) : b.ip = s.ip + 1 :=
  hb.ip.trans (congrArg (· + 1) h.ip)

theorem BackAtLoop.enter_within (h : BackAtLoop s u) (hb : EntersLoop u b) (hlt : s.ip < e) :
    RunsWithin s.ip e 1 u b := by
  have hip := h.enter_ip hb
  exact .one hb.step ⟨h.ip.ge, h.ip ▸ hlt.le⟩ ⟨by omega, by omega⟩

theorem BackAtLoop.fetch (h : BackAtLoop s u) (hi : fetchInstr s = some .loopStart) :
    fetchInstr u = some .loopStart := by
  obtain ⟨⟨-, -, hprog, hhw⟩, -, -⟩ := h.noShrink
  rwa [fetchInstr, hhw, hprog, h.ip]

theorem BackAtLoop.inside (h : BackAtLoop s u) (hp : s.p < s.len) : u.p < u.len :=
  h.p ▸ hp.trans_le h.noShrink.2.1

theorem BackAtLoop.skipScan (h : BackAtLoop s u) (he : skipScan s s.ip = some e) : skipScan u u.ip = some e := by
  obtain ⟨⟨-, -, hprog, hhw⟩, -, -⟩ := h.noShrink
  rw [skipScan_eq_some_iff] at he ⊢
  rwa [hhw, hprog, h.ip]

theorem BackAtLoop.enters (h : BackAtLoop s u) (hi : fetchInstr s = some .loopStart) (hp : s.p < s.len)
    (hstep : 1 ≤ s.cfgStep) (hz : u.cell u.p ≠ 0) : ∃ b, EntersLoop u b := by
  obtain ⟨⟨hcfg, -⟩, -, -⟩ := h.noShrink
  exact entersLoop_of_canPush h.run (h.fetch hi) (h.inside hp) hz (hcfg ▸ hstep) h.depthLe (h.canPush hz)

/-- A body pass after the entry leads to LOOP_END, which leads back to LOOP_START with the cell one lower. -/
theorem BackAtLoop.pass (h : BackAtLoop s u) (hmatch : MatchesLoop s.hw.opmap s.prog s.ip e) (hb : EntersLoop u b)
    (hbody : BodyPass s.ip e b) :
    ∃ k v, RunsWithin s.ip e k u v ∧ BackAtLoop s v ∧ v.cell v.p = u.cell u.p - 1 ∧ visits e k u = 1 := by
  obtain ⟨hlt, hend, -⟩ := hmatch
  obtain ⟨k, x, hx, hxrun, hxip, hxp, hxloops, hxcell, hxin⟩ := hbody
  have hgrown : NoShrink s x := (h.noShrink.trans (step_noShrink hb.step)).trans (runFor_noShrink hx)
  have hxfetch : fetchInstr x = some .loopEnd := by
    obtain ⟨⟨-, -, hprog, hhw⟩, -, -⟩ := hgrown
    rwa [fetchInstr, hhw, hprog, hxip]
  have hxstep : step x = .next ({ x with loops := u.loops }.retire u.ip) :=
    (step_of_instr hxrun hxfetch).trans (exec_of_case (.pop (hxloops.trans hb.loops)))
  have hroom : u.depth < x.cap := hb.room.trans_le (runFor_noShrink hx).2.2
  have hin : RunsWithin s.ip e k b x := by
    refine ⟨hx, fun i hik v hv => ?_⟩
    obtain rfl | hik := hik.eq_or_lt
    · obtain rfl := next_eq_next_iff.1 (hx.symm.trans hv)
      exact ⟨hxip ▸ hlt.le, hxip.le⟩
    · obtain ⟨h1, h2⟩ := hxin i hik v hv
      exact ⟨h1.le, h2.le⟩
  have hfirst : RunsWithin s.ip e 1 u b := h.enter_within hb hlt
  have hlast : RunsWithin s.ip e 1 x ({ x with loops := u.loops }.retire u.ip) :=
    .one hxstep ⟨hxip ▸ hlt.le, hxip.le⟩ ⟨h.ip.ge, by rw [State.retire_ip, h.ip]; exact hlt.le⟩
  refine ⟨1 + k + 1, _, (hfirst.trans hin).trans hlast, ?_, ?_, ?_⟩
  · exact
      { run := hxrun
        ip := h.ip
        p := (hxp.trans hb.p).trans h.p
        loops := h.loops
        noShrink := hgrown.trans (step_noShrink hxstep)
        depthLe := hroom.le
        canPush := fun _ => Option.isSome_iff_exists.2 ⟨_, pushLoop_eq_some.2 (.inl ⟨hroom.ne, rfl⟩)⟩ }
  · exact hxcell.trans (by rw [hb.cell])
  · have hu : u.ip ≠ e := by rw [h.ip]; exact hlt.ne
    rw [visits_add (hfirst.trans hin).1, visits_add hfirst.1, visits_one hb.step, if_neg hu,
      visits_eq_zero fun i hik v hv => (hxin i hik v hv).2.ne, visits_one hxstep, if_pos hxip]

/-- From `u` some number of steps leads behind the loop's LOOP_END at `e`, with the cell at 0, the pointer and the stack
as in `s`, and LOOP_END executed `n` times on the way. -/
def LeavesLoop (s : State) (e n : Nat) (u : State) : Prop :=
  ∃ k t, runFor k u = .next t ∧ t.status.run = .running ∧ t.ip = e + 1 ∧ t.p = s.p ∧ t.cell t.p = 0 ∧
    t.loops = s.loops ∧ visits e k u = n

/-- LOOP_START on a zero cell leaves the loop in one step. -/
theorem BackAtLoop.leavesLoop_of_zero (h : BackAtLoop s u) (hi : fetchInstr s = some .loopStart) (hp : s.p < s.len)
    (he : Machine.skipScan s s.ip = some e) (hz : u.cell u.p = 0) : LeavesLoop s e 0 u := by
  have hstep : step u = .next (u.retire (e + 1)) :=
    (step_of_instr h.run (h.fetch hi)).trans (exec_of_case (.skip (h.inside hp) hz (h.skipScan he)))
  have hne : u.ip ≠ e := by rw [h.ip]; exact (skipScan_eq_some_iff.1 he).1.ne
  exact ⟨1, _, (iterate_one step u).trans hstep, h.run, rfl, h.p, hz, h.loops, (visits_one hstep).trans (if_neg hne)⟩

/-- A pass that executes LOOP_END once, before a run that leaves the loop. -/
theorem LeavesLoop.after_pass {n k : Nat} {v : State} (h : LeavesLoop s e n v) (huv : runFor k u = .next v)
    (hvisits : visits e k u = 1) : LeavesLoop s e (n + 1) u := by
  obtain ⟨k', t, hrun, hstatus, hip, hp, hzero, hloops, hvisits'⟩ := h
  refine ⟨k + k', t, (runFor_add huv k').trans hrun, hstatus, hip, hp, hzero, hloops, ?_⟩
  rw [visits_add huv, hvisits, hvisits', Nat.add_comm]

end

/-- Settles O41: by induction on the cell, each pass lowers it by one and executes LOOP_END once (`BackAtLoop.pass`),
and with the cell at 0 one step leaves the loop (`BackAtLoop.leavesLoop_of_zero`). -/
theorem loopRunsBodyExactlyCellTimes : Obligations.LoopRunsBodyExactlyCellTimes := by
  intro e s hinv hr hi hp he hpush hbody
  have hrun := hinv.running hr
  have hmatch := skipScan_eq_some_iff.1 he
  have hlt : s.ip < e := hmatch.1
  suffices hloop : ∀ (n j : Nat) (u : State), RunsWithin s.ip e j s u → BackAtLoop s u → (u.cell u.p).toNat = n →
      LeavesLoop s e n u from
    hloop _ 0 s (.refl le_rfl hlt.le) ⟨hr, rfl, rfl, rfl, .refl s, hrun.depthLe, hpush⟩ rfl
  intro n
  induction n with
  | zero => exact fun j u _ hu hcell => hu.leavesLoop_of_zero hi hp he (BitVec.eq_of_toNat_eq hcell)
  | succ n ih =>
    intro j u hju hu hcell
    have hz : u.cell u.p ≠ 0 := fun hz => by rw [hz] at hcell; cases hcell
    obtain ⟨b, hb⟩ := hu.enters hi hp hrun.stepPos hz
    have hpass : BodyPass s.ip e b :=
      hbody (j + 1) b (hju.trans (hu.enter_within hb hlt)) (hb.status ▸ hu.run) (hu.enter_ip hb) (hb.p.trans hu.p)
        (by rw [hb.loops, hu.ip, hu.loops]) (hb.cell ▸ hz)
    obtain ⟨k, v, huv, hv, hvcell, hvisits⟩ := hu.pass hmatch hb hpass
    have hvn : (v.cell v.p).toNat = n := by
      have hbound := (u.cell u.p).isLt
      rw [hvcell, byte_sub_one_toNat, hcell]
      omega
    exact (ih (j + k) v (hju.trans huv) hv hvn).after_pass huv.1 hvisits

end Sys2Proof.Machine
end


section
/-! SUPPORT. The depth of the loop stack (20_memory.md R62): a strictly rising stack of LOOP_STARTs is no deeper than
their number, and a capacity of whole steps below that number can grow. -/

namespace Sys2Proof.Machine

open Sys2Proof

/-- A strictly falling list of positions that hold a LOOP_START is no longer than their number (`nLS`). -/
theorem length_le_loopStartCount {m : OpMap} {bytes : List Byte} {l : List Nat} (hl : l.Pairwise (fun a b => b < a))
    (hs : ∀ v ∈ l, opAt m bytes v = some .loopStart) : l.length ≤ loopStartCount m bytes := by
  have hnodup : l.Nodup := hl.imp fun h => h.ne'
  rw [loopStartCount, List.countP_eq_length_filter]
  refine (List.subperm_of_subset hnodup fun v hv => ?_).length_le
  exact List.mem_filter.2 ⟨List.mem_range.2 (lt_of_opAt (hs v hv)), decide_eq_true (hs v hv)⟩

/-- A multiple of `step` below `n` stays within `n` rounded up to whole steps when one step is added. -/
theorem add_step_le_roundUp {step c n : Nat} (hstep : 1 ≤ step) (hdvd : step ∣ c) (hlt : c < n) :
    c + step ≤ step * ((n + step - 1) / step) := by
  obtain ⟨q, rfl⟩ := hdvd
  have hq : q + 1 ≤ (n + step - 1) / step := by
    rw [Nat.le_div_iff_mul_le hstep, Nat.succ_mul, Nat.mul_comm]
    omega
  exact Nat.mul_le_mul_left step hq

/-- Settles O56: the open loops are distinct LOOP_STARTs (`length_le_loopStartCount`), and so are they with the one at
`ip`; a full stack then has its capacity below nLS, and one more step fits (`add_step_le_roundUp`). -/
theorem largeEnoughLoopStackNeverOverflows : Obligations.LargeEnoughLoopStackNeverOverflows := by
  intro s t hinv hr
  have hrun := hinv.running hr
  refine ⟨length_le_loopStartCount hrun.loops_pairwise hrun.loopsStarts, fun hmax hi h hfull => ?_⟩
  rw [step_of_instr hr hi] at h
  cases (exec_err_eq_some_iff h (hinv.control.err_eq_none hr)).1 hfull with
  | stackFull hp hz hd hover =>
    have hpushed : s.depth + 1 ≤ loopStartCount s.hw.opmap s.prog :=
      length_le_loopStartCount hrun.loopsBelow (hrun.push_loopsStarts hi)
    have hgrow := add_step_le_roundUp hrun.stepPos hrun.capSteps (hd ▸ hpushed)
    omega

end Sys2Proof.Machine
end

section
/-! SUPPORT. The dispatch FSM by its internal steps (40_dispatch.md R106, R107): an instruction does not read the FSM at
EXEC, the skip scan one position a step, and the wait states. -/

namespace Sys2Proof.Machine

open Sys2Proof

/-- The state with the FSM at EXEC (R106). -/
def State.atExec (i : Instr) (s : State) : State := { s with fsm := .exec i }

/-- The state with the FSM at SCAN (R106). -/
def State.atScan (j d : Nat) (s : State) : State := { s with fsm := .scan j d }

/-- What LOOP_START does with the answer of the skip scan (R150, R183). -/
def State.afterScan (s : State) : Option Nat → State
  | some m => s.retire (m + 1)
  | none => s.raise .unterminatedLoop s.ip

theorem skipLoop_eq_afterScan (s : State) : skipLoop s = s.afterScan (skipScan s s.ip) := by
  obtain ⟨m, hm, e⟩ | ⟨hm, e⟩ := skipLoop_cases s
  · rw [hm, e]; rfl
  · rw [hm, e]; rfl

/-- Outside the tape a cell access does not come to its action, nor does its answer show the FSM. -/
theorem accessCell_atExec_outside {s : State} (hp : ¬ s.p < s.len) (i : Instr) (act act' : Byte → Result) :
    accessCell (s.atExec i) act = accessCell s act' := by
  have hp' : ¬ (s.atExec i).inBounds := hp
  rw [accessCell, accessCell, if_neg hp, if_neg hp']
  rfl

/-- Inside the tape a cell access at EXEC is given the current cell. -/
theorem accessCell_atExec_inside {s : State} (hp : s.p < s.len) (i : Instr) (act : Byte → Result) :
    accessCell (s.atExec i) act = act (s.cell s.p) :=
  accessCell_inBounds hp

/-- Entering a loop does not read the FSM. -/
theorem enterLoop_atExec (i : Instr) (s : State) : enterLoop (s.atExec i) = enterLoop s := by
  obtain ⟨hd, e⟩ | ⟨hd, hm, e⟩ | ⟨hd, hm, e⟩ := enterLoop_cases s
  · rw [e, enterLoop, (pushLoop_eq_some (s := s.atExec i)).2 (.inl ⟨hd, rfl⟩)]; rfl
  · rw [e, enterLoop, (pushLoop_eq_some (s := s.atExec i)).2 (.inr ⟨hd, hm, rfl⟩)]; rfl
  · rw [e, enterLoop, (pushLoop_eq_none (s := s.atExec i)).2 ⟨hd, hm⟩]; rfl

/-- INCR_PTR does not read the FSM. -/
theorem exec_incrPtr_atExec (i : Instr) (s : State) : exec .incrPtr (s.atExec i) = exec .incrPtr s := by
  obtain ⟨t, ht⟩ := exec_not_accessing (i := .incrPtr) (by decide) s
  rw [ht]
  obtain ⟨hn, rfl⟩ | ⟨hn, hm, rfl⟩ | ⟨hn, hm, rfl⟩ := execIncrPtr_next ht
  · exact exec_of_case (.move (s := s.atExec i) hn)
  · exact exec_of_case (.grow (s := s.atExec i) hn hm)
  · exact exec_of_case (.tapeFull (s := s.atExec i) hn hm)

/-- EXEC completes every instruction but LOOP_START, WRITE and READ as the instruction itself. -/
theorem fsmExec_atExec {i : Instr} (hl : i ≠ .loopStart) (hw : i ≠ .write) (hr : i ≠ .read) (s : State) :
    fsmExec i (s.atExec i) = exec i s := by
  rw [fsmExec, if_neg hl, if_neg hw, if_neg hr]
  cases i with
  | loopStart => exact absurd rfl hl
  | write => exact absurd rfl hw
  | read => exact absurd rfl hr
  | incrPtr => exact exec_incrPtr_atExec _ s
  | decrPtr | incrVal | decrVal | loopEnd | inert8 | inert9 | inertA | inertB | inertC | inertD | inertE
  | inertF => rfl

theorem microStep_fetch {s : State} {i : Instr} (hr : s.status.run = .running) (hf : s.fsm = .fetch)
    (hi : fetchInstr s = some i) : microStep s = .next (s.atExec i) := by
  have hne : s.ip ≠ s.progLen := (lt_progLen_of_fetch hi).ne
  simp only [microStep, hr, hf, fsmFetch, if_neg hne, hi, State.atExec]

theorem microStep_atExec {s : State} (hr : s.status.run = .running) (i : Instr) :
    microStep (s.atExec i) = fsmExec i (s.atExec i) := by
  have hr' : (s.atExec i).status.run = .running := hr
  rw [microStep, hr']
  rfl

theorem microStep_atScan {s : State} (hr : s.status.run = .running) (j d : Nat) :
    microStep (s.atScan j d) = .next (fsmScan j d (s.atScan j d)) := by
  have hr' : (s.atScan j d).status.run = .running := hr
  rw [microStep, hr']
  rfl

theorem microStep_holdIn {s : State} (hr : s.status.run = .running) : microStep s.holdIn = execRead s.holdIn := by
  rw [microStep, show s.holdIn.status.run = .running from hr]
  rfl

theorem microStep_holdOut {s : State} (hr : s.status.run = .running) (v : Byte) :
    microStep (s.holdOut v) = .next (emit v (s.holdOut v)) := by
  rw [microStep, show (s.holdOut v).status.run = .running from hr]
  rfl

/-- A held READ, run again, does what it would have done with no hold (R33, R196). -/
theorem inputByte_holdIn (s : State) : inputByte s.holdIn = inputByte s := by
  obtain ⟨ha, e⟩ | ⟨a, rest, ha, e⟩ := inputByte_cases s
  · rw [e, inputByte, show s.holdIn.inAnswers = [] from ha]
    rfl
  · rw [e, inputByte, show s.holdIn.inAnswers = a :: rest from ha]
    simp only
    rw [State.takeAnswer_eq_with_tape, State.takeAnswer_eq_with_tape a rest s]
    have htape : (s.holdIn.takeAnswer a rest).tape = (s.takeAnswer a rest).tape := by
      cases a with
      | byte v => rfl
      | eof =>
        cases hpolicy : s.hw.eofPolicy with
        | eofZero => simp only [State.takeAnswer_tape, State.storeAnswer, State.holdIn_hw, hpolicy]; rfl
        | eofUnchanged => simp only [State.takeAnswer_tape, State.storeAnswer, State.holdIn_hw, hpolicy]; rfl
    rw [htape]
    rfl

/-- A held WRITE, run again, does what it would have done with no hold, the held byte on offer (R34, R196). -/
theorem emit_holdOut {s : State} (hf : s.fsm = .fetch) (v : Byte) : emit v (s.holdOut v) = emit v s := by
  have hoff : s.offered v = v := State.offered_eq_self fun b hb => by rw [hf] at hb; cases hb
  obtain ⟨ho, e⟩ | ⟨ho, e⟩ := emit_cases v s
  · rw [e, hoff, emit, if_pos (show (s.holdOut v).outReady = true from ho)]
    rfl
  · rw [e, hoff, emit, if_neg (show ¬ (s.holdOut v).outReady = true by simp [ho])]
    rfl

/-- One position of the skip scan, by what stands there (R151). -/
theorem fsmScan_atScan (s : State) (j d : Nat) :
    fsmScan j d (s.atScan j d) =
      if s.progLen ≤ j then s.raise .unterminatedLoop s.ip
      else if opAt s.hw.opmap s.prog j = some .loopStart then s.atScan (j + 1) (d + 1)
      else if opAt s.hw.opmap s.prog j = some .loopEnd then
        if d - 1 = 0 then s.retire (j + 1) else s.atScan (j + 1) (d - 1)
      else s.atScan (j + 1) d :=
  rfl

/-- SCAN performs the skip scan one position a step (R151), and one step more at the end of the program. -/
theorem iterate_microStep_scan {s : State} (hr : s.status.run = .running) {fuel j : Nat} (d : Nat)
    (hfuel : s.progLen - j = fuel) :
    ∃ n ≤ fuel + 1, iterate microStep n (s.atScan j d) =
      .next (s.afterScan (skipScanFrom s.hw.opmap s.prog fuel j d)) := by
  have hstep := microStep_atScan hr j d
  induction fuel generalizing j d with
  | zero =>
    refine ⟨1, le_rfl, ?_⟩
    rw [iterate_one, hstep, fsmScan_atScan, if_pos (Nat.sub_eq_zero_iff_le.1 hfuel)]
    rfl
  | succ fuel ih =>
    have hlt : ¬ s.progLen ≤ j := by omega
    have goesOn (d' : Nat) (hnext : microStep (s.atScan j d) = .next (s.atScan (j + 1) d')) :
        ∃ n ≤ fuel + 1 + 1, iterate microStep n (s.atScan j d) =
          .next (s.afterScan (skipScanFrom s.hw.opmap s.prog fuel (j + 1) d')) := by
      obtain ⟨n, hn, e⟩ := ih (j := j + 1) d' (by omega) (microStep_atScan hr _ _)
      exact ⟨n + 1, Nat.succ_le_succ hn, (iterate_succ hnext n).trans e⟩
    rw [fsmScan_atScan, if_neg hlt] at hstep
    rw [skipScanFrom]
    split
    · next hs =>
      rw [if_pos hs] at hstep
      exact goesOn _ hstep
    · next hs =>
      rw [if_neg hs] at hstep
      split
      · next he =>
        rw [if_pos he] at hstep
        split
        · next hd =>
          rw [if_pos hd] at hstep
          exact ⟨1, Nat.le_add_left _ _, (iterate_one _ _).trans hstep⟩
        · next hd =>
          rw [if_neg hd] at hstep
          exact goesOn _ hstep
      · next he =>
        rw [if_neg he] at hstep
        exact goesOn _ hstep

section
variable {s : State} (hr : s.status.run = .running)
include hr

/-- From EXEC a LOOP_START takes one step, or the skip scan's steps beside it. -/
theorem iterate_microStep_loopStart (hlt : s.ip < s.progLen) :
    ∃ n ≤ s.progLen - s.ip + 1, iterate microStep n (s.atExec .loopStart) = exec .loopStart s := by
  have hexec := microStep_atExec hr .loopStart
  rw [fsmExec, if_pos rfl] at hexec
  by_cases hp : s.p < s.len
  · rw [accessCell_atExec_inside hp] at hexec
    rw [exec_loopStart, accessCell_inBounds hp]
    by_cases hz : cellIsZero (s.cell s.p) = true
    · rw [if_pos hz, skipLoop_eq_afterScan, skipScan]
      obtain ⟨n, hn, e⟩ := iterate_microStep_scan hr (j := s.ip + 1) 1 rfl
      refine ⟨n + 1, by omega, (iterate_succ ?_ n).trans e⟩
      exact hexec.trans (congrArg Host.Outcome.next (if_pos hz))
    · rw [if_neg hz]
      refine ⟨1, Nat.le_add_left _ _, (iterate_one _ _).trans (hexec.trans (congrArg Host.Outcome.next ?_))⟩
      exact (if_neg hz).trans (enterLoop_atExec _ s)
  · refine ⟨1, Nat.le_add_left _ _, ?_⟩
    rw [iterate_one, hexec, exec_loopStart]
    exact accessCell_atExec_outside hp _ _ _

/-- From EXEC a WRITE takes at most two steps: it offers its byte in WAIT_OUT. -/
theorem iterate_microStep_write (hf : s.fsm = .fetch) :
    ∃ n ≤ 2, iterate microStep n (s.atExec .write) = exec .write s := by
  have hexec := microStep_atExec hr .write
  rw [fsmExec, if_neg nofun, if_pos rfl] at hexec
  by_cases hp : s.p < s.len
  · rw [accessCell_atExec_inside hp] at hexec
    refine ⟨2, le_rfl, (iterate_succ hexec 1).trans ((iterate_one _ _).trans ?_)⟩
    rw [exec_write, accessCell_inBounds hp, ← emit_holdOut hf]
    exact microStep_holdOut hr (s.cell s.p)
  · refine ⟨1, Nat.le_succ 1, ?_⟩
    rw [iterate_one, hexec, exec_write]
    exact accessCell_atExec_outside hp _ _ _

/-- From EXEC a READ takes at most two steps: it raises its request in WAIT_IN. -/
theorem iterate_microStep_read : ∃ n ≤ 2, iterate microStep n (s.atExec .read) = exec .read s := by
  have hexec := microStep_atExec hr .read
  rw [fsmExec, if_neg nofun, if_neg nofun, if_pos rfl] at hexec
  by_cases hp : s.p < s.len
  · rw [accessCell_atExec_inside hp] at hexec
    refine ⟨2, le_rfl, (iterate_succ hexec 1).trans ((iterate_one _ _).trans ?_)⟩
    rw [exec_read, accessCell_inBounds hp, ← inputByte_holdIn]
    exact (microStep_holdIn hr).trans (accessCell_inBounds hp)
  · refine ⟨1, Nat.le_succ 1, ?_⟩
    rw [iterate_one, hexec, exec_read]
    exact accessCell_atExec_outside hp _ _ _

/-- From EXEC the FSM performs the instruction within `L - ip + 1` internal steps (R107). -/
theorem iterate_microStep_exec (hf : s.fsm = .fetch) (hlt : s.ip < s.progLen) (i : Instr) :
    ∃ n ≤ s.progLen - s.ip + 1, iterate microStep n (s.atExec i) = exec i s := by
  by_cases hl : i = .loopStart
  · subst hl
    exact iterate_microStep_loopStart hr hlt
  by_cases hw : i = .write
  · subst hw
    obtain ⟨n, hn, e⟩ := iterate_microStep_write hr hf
    exact ⟨n, by omega, e⟩
  by_cases hread : i = .read
  · subst hread
    obtain ⟨n, hn, e⟩ := iterate_microStep_read hr
    exact ⟨n, by omega, e⟩
  · refine ⟨1, Nat.le_add_left _ _, (iterate_one _ _).trans ?_⟩
    rw [microStep_atExec hr, fsmExec_atExec hl hw hread]

end

/-- Settles O57: FETCH alone ends the run or faults as the step does; else it leads to EXEC, from which the FSM performs
the instruction (`iterate_microStep_exec`), SCAN by the induction over the scan (`iterate_microStep_scan`). -/
theorem fsmPerformsArchitecturalStep : Obligations.FsmPerformsArchitecturalStep := by
  intro s hr hf
  cases hi : fetchInstr s with
  | some i =>
    obtain ⟨n, hn, e⟩ := iterate_microStep_exec hr hf (lt_progLen_of_fetch hi) i
    refine ⟨n + 1, Nat.succ_le_succ hn, ?_⟩
    rw [iterate_succ (microStep_fetch hr hf hi), e, step_of_instr hr hi]
  | none =>
    refine ⟨1, Nat.le_add_left _ _, ?_⟩
    simp only [iterate_one, microStep, step, hr, hf, fsmFetch, hi]

end Sys2Proof.Machine
end


section
/-! SUPPORT. The frames of the instructions (10_state.md sections 1, 2 and 5; 20_memory.md sections 2, 3, 4 and 6). -/

namespace Sys2Proof.Machine

open Sys2Proof

/-- What no instruction writes beside the configuration (R25, R31, R34, R35): the inputs, the host's readiness, POLICY. -/
def SameInputs (s t : State) : Prop :=
  t.stepIn = s.stepIn ∧ t.strictIn = s.strictIn ∧ t.outReady = s.outReady ∧ t.status.policy = s.status.policy

theorem State.takeAnswer_sameInputs (a : InAnswer) (rest : List InAnswer) (s : State) :
    SameInputs s (s.takeAnswer a rest) :=
  ⟨s.takeAnswer_stepIn a rest, s.takeAnswer_strictIn a rest, s.takeAnswer_outReady a rest,
    by rw [State.takeAnswer_status]⟩

theorem ExecCase.sameInputs {i : Instr} {s t : State} (c : ExecCase i s t) : SameInputs s t := by
  cases c with
  | readIn => exact State.takeAnswer_sameInputs _ _ _
  | outOfBounds | move | grow | tapeFull | backStrict | backPermissive | incrVal | decrVal | writeOut | writeHeld
  | readHeld | skip | unterminated | push | pushGrow | stackFull | pop | endUnexpected | endIgnored
  | inert => exact ⟨rfl, rfl, rfl, rfl⟩

/-- Only the pointer instructions write `p`. -/
theorem ExecCase.p_eq {i : Instr} {s t : State} (c : ExecCase i s t) (hup : i ≠ .incrPtr) (hdown : i ≠ .decrPtr) :
    t.p = s.p := by
  cases c with
  | move | grow | tapeFull => exact absurd rfl hup
  | backStrict | backPermissive => exact absurd rfl hdown
  | readIn => exact State.takeAnswer_p _ _ _
  | outOfBounds | incrVal | decrVal | writeOut | writeHeld | readHeld | skip | unterminated | push | pushGrow
  | stackFull | pop | endUnexpected | endIgnored | inert => rfl

/-- Settles O26: `ExecCase.sameConfig`, `ExecCase.sameInputs` and `ExecCase.p_eq`. -/
theorem registersAnInstructionKeeps : Obligations.RegistersAnInstructionKeeps := by
  intro i s t h
  have c := exec_next_cases h
  obtain ⟨hstep, hstrict, hprog, hhw⟩ := c.sameConfig
  obtain ⟨hstepIn, hstrictIn, hready, hpolicy⟩ := c.sameInputs
  exact ⟨hhw, hstep, hstrict, hprog, hstepIn, hstrictIn, hready, hpolicy, c.p_eq⟩

/-- What an instruction does to the tape's cells: none changes, READ and the cell arithmetic change the current one,
which is inside the tape, or growth clears the cells it creates. -/
theorem ExecCase.cells {i : Instr} {s t : State} (c : ExecCase i s t) (hm : Memory.wf s.tape) :
    (∀ a, t.cell a = s.cell a) ∨
      (i ∈ [Instr.incrVal, .decrVal, .read] ∧ s.p < s.len ∧ t.len = s.len ∧ ∀ a, a ≠ s.p → t.cell a = s.cell a) ∨
      (i = .incrPtr ∧ ∀ a, a < s.len ∨ t.len ≤ a → t.cell a = s.cell a) := by
  cases c with
  | incrVal hp | decrVal hp =>
    exact .inr (.inl ⟨by decide, hp, rfl, fun a ha => State.setCell_cell_of_ne hm _ ha⟩)
  | readIn hp =>
    exact .inr (.inl ⟨by decide, hp, State.takeAnswer_len _ _ _, fun a ha => State.storeAnswer_cell_of_ne hm _ ha⟩)
  | grow =>
    refine .inr (.inr ⟨rfl, fun a ha => (Memory.read_zeroRange _ _ _ a).trans (if_neg ?_)⟩)
    change a < s.len ∨ s.len + s.cfgStep ≤ a at ha
    omega
  | outOfBounds | move | tapeFull | backStrict | backPermissive | writeOut | writeHeld | readHeld | skip
  | unterminated | push | pushGrow | stackFull | pop | endUnexpected | endIgnored | inert => exact .inl fun _ => rfl

/-- Settles O28: the clauses list by instruction what `ExecCase.cells` says. -/
theorem tapeBytesAnInstructionKeeps : Obligations.TapeBytesAnInstructionKeeps := by
  intro i s t hm h a
  obtain hall | ⟨hi, -, -, hrest⟩ | ⟨rfl, hrest⟩ := (exec_next_cases h).cells hm
  · exact ⟨fun _ _ => hall a, fun _ _ => hall a, fun _ => hall a⟩
  · refine ⟨fun _ => hrest a, fun hup => absurd hi (hup ▸ by decide), fun hn => ?_⟩
    exact absurd (List.mem_append_left [Instr.incrPtr] hi) hn
  · exact ⟨fun hi => absurd hi (by decide), fun _ => hrest a, fun hn => absurd (by decide) hn⟩

/-- What an instruction does to the loop stack and its capacity: LOOP_START may push, LOOP_END pops, no other does. -/
theorem ExecCase.loopStack {i : Instr} {s t : State} (c : ExecCase i s t) :
    (i ≠ .loopEnd ∧ t.loops = s.loops ∧ t.cap = s.cap) ∨
      (i = .loopStart ∧ t.loops = s.ip :: s.loops ∧ (t.cap = s.cap ∨ t.cap = s.cap + s.cfgStep)) ∨
      (i = .loopEnd ∧ t.loops = s.loops.tail ∧ t.cap = s.cap) := by
  cases c with
  | push => exact .inr (.inl ⟨rfl, rfl, .inl rfl⟩)
  | pushGrow => exact .inr (.inl ⟨rfl, rfl, .inr rfl⟩)
  | pop hl => exact .inr (.inr ⟨rfl, by rw [hl]; rfl, rfl⟩)
  | endUnexpected hl | endIgnored hl => exact .inr (.inr ⟨rfl, by rw [hl]; exact hl, rfl⟩)
  | readIn => exact .inl ⟨nofun, State.takeAnswer_loops _ _ _, State.takeAnswer_cap _ _ _⟩
  | outOfBounds hi => exact .inl ⟨(by rintro rfl; revert hi; decide), rfl, rfl⟩
  | inert hi => exact .inl ⟨(by rintro rfl; cases hi), rfl, rfl⟩
  | move | grow | tapeFull | backStrict | backPermissive | incrVal | decrVal | writeOut | writeHeld | readHeld | skip
  | unterminated | stackFull => exact .inl ⟨nofun, rfl, rfl⟩

/-- Settles O29: the clauses list by instruction what `ExecCase.loopStack` says. -/
theorem loopStackFrame : Obligations.LoopStackFrame := by
  intro i s t h
  obtain ⟨hne, hl, hc⟩ | ⟨rfl, hl, hc⟩ | ⟨rfl, hl, hc⟩ := (exec_next_cases h).loopStack
  · exact ⟨fun _ => hc, fun _ => .inl ⟨hl, hc⟩, fun he => absurd he hne, fun _ _ => hl⟩
  · exact ⟨fun hs => absurd rfl hs, fun _ => .inr ⟨hl, hc⟩, nofun, fun hs => absurd rfl hs⟩
  · exact ⟨fun _ => hc, nofun, fun _ => hl, fun _ he => absurd rfl he⟩

/-- What an instruction does to the output: WRITE may append one byte, no other does. -/
theorem ExecCase.output {i : Instr} {s t : State} (c : ExecCase i s t) :
    t.output = s.output ∨ (i = .write ∧ ∃ v, t.output = s.output ++ [v]) := by
  cases c with
  | writeOut => exact .inr ⟨rfl, _, rfl⟩
  | readIn => exact .inl (State.takeAnswer_output _ _ _)
  | outOfBounds | move | grow | tapeFull | backStrict | backPermissive | incrVal | decrVal | writeHeld | readHeld
  | skip | unterminated | push | pushGrow | stackFull | pop | endUnexpected | endIgnored | inert => exact .inl rfl

/-- What an instruction does to the answers: READ may consume the oldest one, no other does. -/
theorem ExecCase.answers {i : Instr} {s t : State} (c : ExecCase i s t) :
    (t.inAnswers = s.inAnswers ∧ t.inTaken = s.inTaken) ∨
      (i = .read ∧ ∃ a, s.inAnswers = a :: t.inAnswers ∧ t.inTaken = s.inTaken ++ [a]) := by
  cases c with
  | readIn _ ha => exact .inr ⟨rfl, _, ha, rfl⟩
  | outOfBounds | move | grow | tapeFull | backStrict | backPermissive | incrVal | decrVal | writeOut | writeHeld
  | readHeld | skip | unterminated | push | pushGrow | stackFull | pop | endUnexpected | endIgnored
  | inert => exact .inl ⟨rfl, rfl⟩

/-- An instruction but READ keeps WAIT_IN, unless an error clears it. -/
theorem ControlCase.waitIn {i : Instr} {s t : State} (c : ControlCase i s t) (hne : i ≠ .read) :
    t.status.waitIn = s.status.waitIn ∨ (t.status.run = .error ∧ t.status.waitIn = false) := by
  cases c with
  | raised => exact .inr ⟨rfl, rfl⟩
  | heldIn => exact absurd rfl hne
  | heldOut => exact .inl rfl
  | completed _ hs => exact .inl (by rw [hs]; exact if_neg hne)

/-- An instruction but WRITE keeps WAIT_OUT, unless an error clears it. -/
theorem ControlCase.waitOut {i : Instr} {s t : State} (c : ControlCase i s t) (hne : i ≠ .write) :
    t.status.waitOut = s.status.waitOut ∨ (t.status.run = .error ∧ t.status.waitOut = false) := by
  cases c with
  | raised => exact .inr ⟨rfl, rfl⟩
  | heldIn => exact .inl rfl
  | heldOut => exact absurd rfl hne
  | completed _ hs => exact .inl (by rw [hs]; exact if_neg hne)

/-- Settles O30: the output is `ExecCase.output`, the answers `ExecCase.answers`, the wait bits `ControlCase.waitIn` and
`ControlCase.waitOut`. -/
theorem channelFrame : Obligations.ChannelFrame := by
  intro i s t h
  have c := exec_next_cases h
  refine ⟨fun hne => ?_, fun _ => c.output.imp_right And.right, fun hne => ?_,
    fun _ => c.answers.imp_right And.right, c.controlCase.waitIn, c.controlCase.waitOut⟩
  · exact c.output.resolve_right fun hw => hne hw.1
  · exact c.answers.resolve_right fun hr => hne hr.1

end Sys2Proof.Machine
end

section
/-! SUPPORT. What an error records, and the causes of the errors of the tape and the stack (60_exceptions.md sections 1
and 2). -/

namespace Sys2Proof.Machine

open Sys2Proof

/-- Settles O31: an instruction that comes to ERROR from another state raised an error, as one that raises none keeps
RUN (`ExecCase.raises_or_keeps_run_err`). -/
theorem errorRecordsAndChangesNothingElse : Obligations.ErrorRecordsAndChangesNothingElse := by
  intro i s t h hs ht
  obtain ⟨k, -, rfl⟩ | ⟨hrun, -⟩ := (exec_next_cases h).raises_or_keeps_run_err
  · exact ⟨k, rfl⟩
  · exact absurd (hrun ▸ ht) hs

/-- Settles O34: the one cause of DataIndexOutOfBounds is `Raises.outOfBounds` (`exec_err_eq_some_iff`). -/
theorem dataIndexOutOfBoundsExactlyWhen : Obligations.DataIndexOutOfBoundsExactlyWhen := by
  intro i s t h he
  rw [exec_err_eq_some_iff h he, mem_accessing_iff]
  constructor
  · intro r
    cases r with
    | outOfBounds hi hp hs => exact ⟨hi, hs, Nat.not_lt.1 hp⟩
  · rintro ⟨hi, hs, hp⟩
    exact .outOfBounds hi (Nat.not_lt.2 hp) hs

/-- Settles O35: the causes of CapacityExceeded are `Raises.tapeFull` and `Raises.stackFull`, and there is none of the
two start errors (`exec_err_eq_some_iff`). -/
theorem capacityExceededExactlyWhen : Obligations.CapacityExceededExactlyWhen := by
  intro i s t h he
  simp only [ne_eq, exec_err_eq_some_iff h he]
  refine ⟨⟨fun r => ?_, ?_⟩, nofun, nofun⟩
  · cases r with
    | tapeFull hn hm => exact .inl ⟨rfl, hn, hm⟩
    | stackFull hp hz hd hm => exact .inr ⟨rfl, hp, hz, hd, hm⟩
  · rintro (⟨rfl, hn, hm⟩ | ⟨rfl, hp, hz, hd, hm⟩)
    · exact .tapeFull hn hm
    · exact .stackFull hp hz hd hm

end Sys2Proof.Machine
end

section
/-! SUPPORT. Clause by clause: DECR_PTR (41_pointer.md R121), LOOP_START (44_loop.md R150) with its skip law, and the
permissive access outside the tape (20_memory.md R52; decision D21). -/

namespace Sys2Proof.Machine

open Sys2Proof

/-- At 0 the strict DECR_PTR wraps to the largest pointer (R121; decision D4). -/
theorem State.prevPtr_of_zero {s : State} (hp : s.p = 0) : s.prevPtr = 2 ^ s.hw.ptrWidth - 1 := by
  have hpos := Nat.two_pow_pos s.hw.ptrWidth
  rw [State.prevPtr, hp, Nat.zero_add, Nat.mod_eq_of_lt (by omega)]

/-- The pointer that DECR_PTR leaves, under either policy (R121). -/
def State.backPtr (s : State) : Nat :=
  if s.p = 0 then (if s.cfgStrict then 2 ^ s.hw.ptrWidth - 1 else 0) else s.p - 1

theorem exec_decrPtr {s : State} (hr : s.p < 2 ^ s.hw.ptrWidth) :
    exec .decrPtr s = .next ({ s with p := s.backPtr }.retire (s.ip + 1)) := by
  obtain hs | hs := s.cfgStrict.eq_false_or_eq_true
  · have hback : s.backPtr = s.prevPtr := by
      rw [State.backPtr, hs]
      split
      · next hp => exact (State.prevPtr_of_zero hp).symm
      · next hp => exact (State.prevPtr_of_ne_zero hr hp).symm
    rw [hback]
    exact exec_of_case (.backStrict hs)
  · have hback : s.backPtr = s.p - 1 := by
      rw [State.backPtr, hs]
      split
      · next hp => rw [hp]; rfl
      · rfl
    rw [hback]
    exact exec_of_case (.backPermissive hs)

/-- Settles O17: `exec_decrPtr`, the strict pointer off and at 0, and the permissive one. -/
theorem decrPtrMovesByPolicy : Obligations.DecrPtrMovesByPolicy :=
  fun _ hr => exec_decrPtr hr

/-- Settles O22: its clauses are the cases `skip`, `unterminated`, `push`, `pushGrow`, `stackFull` and `outOfBounds` of
LOOP_START (`exec_of_case`). -/
theorem loopStartSkipsOrEnters : Obligations.LoopStartSkipsOrEnters :=
  fun _ => ⟨fun hp hz _ hm => exec_of_case (.skip hp hz hm), fun hp hz hm => exec_of_case (.unterminated hp hz hm),
    fun hp hz hd => exec_of_case (.push hp hz hd), fun hp hz hd hm => exec_of_case (.pushGrow hp hz hd hm),
    fun hp hz hd hm => exec_of_case (.stackFull hp hz hd hm),
    fun hp hs => exec_of_case (.outOfBounds (by decide) (Nat.not_lt.2 hp) hs)⟩

/-- Settles O25: the five are a cell access (`exec_accessing`), which faults there before its action
(`accessCell_permissive`). -/
theorem permissiveAccessOutsideTapeFaults : Obligations.PermissiveAccessOutsideTapeFaults := by
  intro i s hi hp hs
  obtain ⟨act, e⟩ := exec_accessing (mem_accessing_iff.1 hi) s
  rw [e, accessCell_permissive (Nat.not_lt.2 hp) hs]

/-- Settles O40: the step runs LOOP_START, whose zero cases follow the scan; the scan answers the match
(`skipScan_eq_some_iff`, `skipScan_eq_none_iff`). -/
theorem zeroCellSkipsWholeLoop : Obligations.ZeroCellSkipsWholeLoop := by
  intro s hr hi hp hz
  rw [step_of_instr hr hi]
  refine ⟨fun m hm => exec_of_case (.skip hp hz (skipScan_eq_some_iff.2 hm)), fun hn => ?_⟩
  exact ⟨_, exec_of_case (.unterminated hp hz (skipScan_eq_none_iff.2 hn)), rfl, rfl, rfl⟩

end Sys2Proof.Machine
end

section
/-! SUPPORT. Pointer moves over two instructions (41_pointer.md), and the strict pointer against the tape
(20_memory.md R58). -/

namespace Sys2Proof.Machine

open Sys2Proof

/-- INCR_PTR that goes on in a run moved the pointer up (R120). -/
theorem p_of_incrPtr {s t : State} (h : exec .incrPtr s = .next t) (hr : t.status.run = .running) :
    t.p = s.nextPtr := by
  obtain ⟨-, rfl⟩ | ⟨-, -, rfl⟩ | ⟨-, -, rfl⟩ := execIncrPtr_next h
  · rfl
  · rfl
  · cases hr

/-- DECR_PTR moved the pointer down, by its policy (R121). -/
theorem p_of_decrPtr {s t : State} (h : exec .decrPtr s = .next t) (hp : s.p < 2 ^ s.hw.ptrWidth) :
    t.p = s.backPtr := by
  rw [next_eq_next_iff.1 ((exec_decrPtr hp).symm.trans h)]
  rfl

theorem State.nextPtr_of_lt {s : State} (h : s.p + 1 < 2 ^ s.hw.ptrWidth) : s.nextPtr = s.p + 1 :=
  Nat.mod_eq_of_lt h

/-- The largest pointer wraps to 0 (R120). -/
theorem State.nextPtr_of_last {s : State} (h : s.p + 1 = 2 ^ s.hw.ptrWidth) : s.nextPtr = 0 := by
  rw [State.nextPtr, h, Nat.mod_self]

/-- Up, then down: the pointer is back, in permissive mode where it did not wrap. -/
theorem backPtr_of_up {s t : State} (hp : s.p < 2 ^ s.hw.ptrWidth) (hhw : t.hw = s.hw)
    (hstrict : t.cfgStrict = s.cfgStrict) (ht : t.p = s.nextPtr)
    (hwrap : s.cfgStrict = true ∨ s.p + 1 < 2 ^ s.hw.ptrWidth) : t.backPtr = s.p := by
  obtain hlt | hlast := (Nat.succ_le_of_lt hp).lt_or_eq
  · rw [State.nextPtr_of_lt hlt] at ht
    rw [State.backPtr, if_neg (by omega), ht, Nat.add_sub_cancel]
  · rw [State.nextPtr_of_last hlast] at ht
    rw [State.backPtr, if_pos ht, hhw, hstrict, if_pos (hwrap.resolve_right hlast.not_lt), ← hlast]
    rfl

/-- Down, then up: the pointer is back, but for a permissive pointer at 0, which is then at 1. -/
theorem nextPtr_of_down {s t : State} (hp : s.p < 2 ^ s.hw.ptrWidth) (hhw : t.hw = s.hw) (ht : t.p = s.backPtr) :
    (s.cfgStrict = true → t.nextPtr = s.p) ∧
      (s.cfgStrict = false → 1 < 2 ^ s.hw.ptrWidth → t.nextPtr = if s.p = 0 then 1 else s.p) := by
  rw [State.nextPtr, hhw, ht, State.backPtr]
  by_cases hz : s.p = 0
  · rw [if_pos hz, if_pos hz]
    refine ⟨fun hs => ?_, fun hs hone => ?_⟩
    · rw [if_pos hs, Nat.sub_add_cancel (Nat.two_pow_pos _), Nat.mod_self, hz]
    · rw [if_neg (by simp [hs]), Nat.zero_add, Nat.mod_eq_of_lt hone]
  · rw [if_neg hz, if_neg hz, Nat.sub_add_cancel (Nat.pos_of_ne_zero hz), Nat.mod_eq_of_lt hp]
    exact ⟨fun _ => rfl, fun _ _ => rfl⟩

/-- Settles O43: the pointer after each move is `p_of_incrPtr` and `p_of_decrPtr`, the configuration stays, and the two
orders are `backPtr_of_up` and `nextPtr_of_down`. -/
theorem pointerMovesInvert : Obligations.PointerMovesInvert := by
  intro s t u hp hr
  refine ⟨fun hup hdown hwrap => ?_, fun hdown hup hru => ?_⟩
  · obtain ⟨-, hstrict, -, hhw⟩ := (exec_next_cases hup).sameConfig
    have ht := p_of_incrPtr hup hr
    have htp : t.p < 2 ^ t.hw.ptrWidth := by rw [ht, hhw]; exact s.nextPtr_lt
    rw [p_of_decrPtr hdown htp]
    exact backPtr_of_up hp hhw hstrict ht hwrap
  · obtain ⟨-, -, -, hhw⟩ := (exec_next_cases hdown).sameConfig
    rw [p_of_incrPtr hup hru]
    exact nextPtr_of_down hp hhw (p_of_decrPtr hdown hp)

/-- R58 for one instruction: from inside the tape the strict pointer leaves it only by the wrap of DECR_PTR at 0. -/
theorem ExecCase.strictPointer {i : Instr} {s t : State} (c : ExecCase i s t) (hp : s.p < s.len)
    (hr : s.p < 2 ^ s.hw.ptrWidth) (hstep : 1 ≤ s.cfgStep) :
    t.p < t.len ∨ (i = .decrPtr ∧ s.p = 0 ∧ t.p = 2 ^ s.hw.ptrWidth - 1 ∧ t.len = s.len) := by
  cases c with
  | move hn => exact .inl (State.nextPtr_lt_len hp hn)
  | grow hn => exact .inl (hn.trans_lt (Nat.lt_add_of_pos_right hstep))
  | backStrict =>
    by_cases hz : s.p = 0
    · exact .inr ⟨rfl, hz, State.prevPtr_of_zero hz, rfl⟩
    · exact .inl ((State.prevPtr_of_ne_zero hr hz).trans_lt ((s.p.sub_le 1).trans_lt hp))
  | backPermissive => exact .inl ((s.p.sub_le 1).trans_lt hp)
  | readIn => exact .inl (by rw [State.takeAnswer_p, State.takeAnswer_len]; exact hp)
  | outOfBounds | tapeFull | incrVal | decrVal | writeOut | writeHeld | readHeld | skip | unterminated | push
  | pushGrow | stackFull | pop | endUnexpected | endIgnored | inert => exact .inl hp

/-- Settles O54: the step runs an instruction (`ExecCase.strictPointer`) or ends the run; the wrapped pointer is at or
past `len`, which is at most TAPE_MAX where STEP is (`RunInv.lenHigh`). -/
theorem strictPointerLeavesTapeOnlyByUnderflow : Obligations.StrictPointerLeavesTapeOnlyByUnderflow := by
  intro s t hinv hr hstep hstrict hp h
  have hrun := hinv.running hr
  obtain ⟨hnr, -⟩ | ⟨-, -, rfl⟩ | ⟨-, -, i, hi, hx⟩ := step_next_cases h
  · exact absurd hr hnr
  · exact .inl hp
  · obtain hin | ⟨rfl, hz, htp, hlen⟩ := (exec_next_cases hx).strictPointer hp hrun.ptrRange hrun.stepPos
    · exact .inl hin
    · have hmax : s.len ≤ s.hw.tapeMax := hrun.lenHigh.trans (max_le hstep le_rfl)
      have hwidth : s.hw.tapeMax < 2 ^ s.hw.ptrWidth := hinv.hwOk.2.1
      exact .inr ⟨hi, hz, htp, by omega⟩

end Sys2Proof.Machine
end


section
/-! SUPPORT. Laws of the cell arithmetic over several instructions (42_cell.md). -/

namespace Sys2Proof.Machine

open Sys2Proof

/-- Writing the byte back that stood there restores the tape. -/
theorem Memory.write_write_read {m : List Host.Cell} (hm : Memory.wf m) (a : Nat) (v : Byte) :
    Memory.write (Memory.write m a v) a (Memory.read m a) = m := by
  have hm' := Memory.wf_write a v hm
  refine Memory.ext (Memory.wf_write a _ hm') hm fun b => ?_
  rw [Memory.read_write hm', Memory.read_write hm]
  split
  · next hb => rw [hb]
  · rfl

theorem exec_incrVal_inside {s : State} (hp : s.p < s.len) :
    exec .incrVal s = .next ((s.setCell (s.cell s.p + 1)).retire (s.ip + 1)) :=
  exec_of_case (.incrVal hp)

theorem exec_decrVal_inside {s : State} (hp : s.p < s.len) :
    exec .decrVal s = .next ((s.setCell (s.cell s.p - 1)).retire (s.ip + 1)) :=
  exec_of_case (.decrVal hp)

/-- After a completed write, an instruction that completes by writing the old byte back has only moved `ip`. -/
theorem exec_restores {i : Instr} {s : State} {v w : Byte} (hm : Memory.wf s.tape) (hw : w = s.cell s.p)
    (hexec : exec i ((s.setCell v).retire (s.ip + 1)) =
      .next ((((s.setCell v).retire (s.ip + 1)).setCell w).retire (s.ip + 2))) :
    exec i ((s.setCell v).retire (s.ip + 1)) = .next { s with ip := s.ip + 2, fsm := .fetch } := by
  have htape : Memory.write (Memory.write s.tape s.p v) s.p (s.cell s.p) = s.tape :=
    Memory.write_write_read hm s.p v
  rw [hexec, hw]
  simp only [State.retire, State.setCell, htape]

/-- `k` times an instruction that writes `f` of the current cell: the cell holds the `k`-th iterate, every other cell
what it held. -/
theorem iterate_setCell {i : Instr} {f : Byte → Byte}
    (hexec : ∀ s : State, s.p < s.len → exec i s = .next ((s.setCell (f (s.cell s.p))).retire (s.ip + 1)))
    (k : Nat) {s : State} (hm : Memory.wf s.tape) (hp : s.p < s.len) :
    ∃ t, iterate (exec i) k s = .next t ∧ t.cell s.p = f^[k] (s.cell s.p) ∧ ∀ a, a ≠ s.p → t.cell a = s.cell a := by
  induction k generalizing s with
  | zero => exact ⟨s, rfl, rfl, fun _ _ => rfl⟩
  | succ k ih =>
    obtain ⟨t, ht, hcell, hrest⟩ :=
      ih (s := (s.setCell (f (s.cell s.p))).retire (s.ip + 1)) (State.wf_setCell hm _) hp
    refine ⟨t, (iterate_succ (hexec s hp) k).trans ht, hcell.trans ?_, fun a ha => (hrest a ha).trans ?_⟩
    · rw [Function.iterate_succ_apply]
      exact congrArg f^[k] (State.setCell_cell_self hm _)
    · exact State.setCell_cell_of_ne hm _ ha

theorem iterate_add_one_toNat (k : Nat) (v : Byte) : ((fun w : Byte => w + 1)^[k] v).toNat = (v.toNat + k) % 256 := by
  induction k with
  | zero => exact (Nat.mod_eq_of_lt v.isLt).symm
  | succ k ih => rw [Function.iterate_succ_apply', byte_add_one_toNat, ih]; omega

theorem iterate_sub_one_toNat (k : Nat) (v : Byte) :
    (((fun w : Byte => w - 1)^[k] v).toNat + k) % 256 = v.toNat := by
  induction k with
  | zero => exact Nat.mod_eq_of_lt v.isLt
  | succ k ih => rw [Function.iterate_succ_apply', byte_sub_one_toNat]; omega

/-- Settles O42: the second instruction writes the old byte back (`exec_restores`); `k` of one iterate its byte
function (`iterate_setCell`), which adds or subtracts `k` modulo 256. -/
theorem cellArithmeticLaws : Obligations.CellArithmeticLaws := by
  intro s hm hp
  refine ⟨⟨_, exec_incrVal_inside hp, ?_⟩, ⟨_, exec_decrVal_inside hp, ?_⟩, fun k => ?_, fun k => ?_⟩
  · have hback : (s.setCell (s.cell s.p + 1)).cell s.p - 1 = s.cell s.p := by
      rw [State.setCell_cell_self hm, BitVec.add_sub_cancel]
    exact exec_restores hm hback (exec_decrVal_inside (s := (s.setCell _).retire _) hp)
  · have hback : (s.setCell (s.cell s.p - 1)).cell s.p + 1 = s.cell s.p := by
      rw [State.setCell_cell_self hm, BitVec.sub_add_cancel]
    exact exec_restores hm hback (exec_incrVal_inside (s := (s.setCell _).retire _) hp)
  · obtain ⟨t, ht, hcell, hrest⟩ := iterate_setCell (f := (· + 1)) (fun _ => exec_incrVal_inside) k hm hp
    exact ⟨t, ht, by rw [hcell, iterate_add_one_toNat], hrest⟩
  · obtain ⟨t, ht, hcell, hrest⟩ := iterate_setCell (f := (· - 1)) (fun _ => exec_decrVal_inside) k hm hp
    exact ⟨t, ht, by rw [hcell, iterate_sub_one_toNat], hrest⟩

end Sys2Proof.Machine
end

section
/-! SUPPORT. Holds (60_exceptions.md section 6; decision D11): a held instruction keeps the state, and run again it does
what it would have done with no hold. -/

namespace Sys2Proof.Machine

open Sys2Proof

/-- A READ held on its request, run again, is the READ with no hold (R196). -/
theorem exec_read_holdIn {s : State} (hp : s.p < s.len) : exec .read s.holdIn = exec .read s := by
  rw [exec_read, exec_read, accessCell_inBounds hp, accessCell_inBounds (s := s.holdIn) hp, inputByte_holdIn]

/-- A WRITE held on its byte, run again, is the WRITE with no hold (R196). -/
theorem exec_write_holdOut {s : State} (hp : s.p < s.len) (hf : s.fsm = .fetch) :
    exec .write (s.holdOut (s.cell s.p)) = exec .write s := by
  rw [exec_write, exec_write, accessCell_inBounds hp, accessCell_inBounds (s := s.holdOut _) hp]
  exact congrArg Host.Outcome.next (emit_holdOut hf _)

/-- With its wait bit and the FSM put back, a hold on an input request is the state before it. -/
theorem State.holdIn_release {s : State} (hw : s.status.waitIn = false) (hf : s.fsm = .fetch) :
    { s.holdIn with status := { s.holdIn.status with waitIn := false }, fsm := .fetch } = s := by
  rw [← hw, ← hf]
  rfl

/-- With its wait bit and the FSM put back, a hold on an output byte is the state before it. -/
theorem State.holdOut_release {s : State} (hw : s.status.waitOut = false) (hf : s.fsm = .fetch) (v : Byte) :
    { s.holdOut v with status := { (s.holdOut v).status with waitOut := false }, fsm := .fetch } = s := by
  rw [← hw, ← hf]
  rfl

/-- Settles O44: the held states are `holdIn` and `holdOut` of the old one, and the held instruction run again, with its
answer or its acceptance, is `exec_read_holdIn` and `exec_write_holdOut`. -/
theorem holdKeepsStateAndResumes : Obligations.HoldKeepsStateAndResumes := by
  intro s hp
  refine ⟨fun ha hw hf => ?_, fun ho hw hf => ?_⟩
  · refine ⟨s.holdIn, exec_of_case (.readHeld hp ha), rfl, State.holdIn_release hw hf,
      (exec_read_holdIn hp).trans (exec_of_case (.readHeld hp ha)), fun a => ?_⟩
    exact exec_read_holdIn (s := { s with inAnswers := [a] }) hp
  · have hoff : s.offered (s.cell s.p) = s.cell s.p :=
      State.offered_eq_self fun b hb => by rw [hf] at hb; cases hb
    have hheld : exec .write s = .next (s.holdOut (s.cell s.p)) := by
      rw [exec_of_case (.writeHeld hp ho), hoff]
    exact ⟨s.holdOut (s.cell s.p), hheld, rfl, State.holdOut_release hw hf _,
      (exec_write_holdOut hp hf).trans hheld, exec_write_holdOut (s := { s with outReady := true }) hp hf⟩

end Sys2Proof.Machine
end

section
/-! SUPPORT. Answers the host gives later (40_dispatch.md R110; log 12): more of them behind those queued stay behind. -/

namespace Sys2Proof.Machine

open Sys2Proof

/-- The state with more answers queued behind those it has. -/
def State.queueBehind (more : List InAnswer) (s : State) : State := { s with inAnswers := s.inAnswers ++ more }

theorem State.storeAnswer_queueBehind (more : List InAnswer) (a : InAnswer) (s : State) :
    (s.queueBehind more).storeAnswer a = (s.storeAnswer a).queueBehind more := by
  have hpolicy : (s.queueBehind more).hw.eofPolicy = s.hw.eofPolicy := rfl
  cases a with
  | byte v => rfl
  | eof =>
    cases h : s.hw.eofPolicy with
    | eofZero => rw [State.storeAnswer_eof_of_zero (hpolicy.trans h), State.storeAnswer_eof_of_zero h]; rfl
    | eofUnchanged =>
      rw [State.storeAnswer_eof_of_unchanged (hpolicy.trans h), State.storeAnswer_eof_of_unchanged h]

theorem State.takeAnswer_queueBehind (more : List InAnswer) (a : InAnswer) (rest : List InAnswer) (s : State) :
    (s.queueBehind more).takeAnswer a (rest ++ more) = (s.takeAnswer a rest).queueBehind more := by
  rw [State.takeAnswer, State.storeAnswer_queueBehind]
  rfl

/-- An instruction that does not wait for an answer does the same with more answers queued. -/
theorem ExecCase.queueBehind {i : Instr} {s t : State} (c : ExecCase i s t) (hw : t.fsm ≠ .waitIn)
    (more : List InAnswer) : ExecCase i (s.queueBehind more) (t.queueBehind more) := by
  cases c with
  | outOfBounds hi hp hs => exact .outOfBounds hi hp hs
  | move hn => exact .move hn
  | grow hn hm => exact .grow hn hm
  | tapeFull hn hm => exact .tapeFull hn hm
  | backStrict hs => exact .backStrict hs
  | backPermissive hs => exact .backPermissive hs
  | incrVal hp => exact .incrVal hp
  | decrVal hp => exact .decrVal hp
  | writeOut hp ho => exact .writeOut hp ho
  | writeHeld hp ho => exact .writeHeld hp ho
  | readHeld => exact absurd rfl hw
  | readIn hp ha =>
    rw [← State.takeAnswer_queueBehind]
    exact .readIn hp (congrArg (· ++ more) ha)
  | skip hp hz hm => exact .skip hp hz hm
  | unterminated hp hz hm => exact .unterminated hp hz hm
  | push hp hz hd => exact .push hp hz hd
  | pushGrow hp hz hd hm => exact .pushGrow hp hz hd hm
  | stackFull hp hz hd hm => exact .stackFull hp hz hd hm
  | pop hl => exact .pop hl
  | endUnexpected hl hs => exact .endUnexpected hl hs
  | endIgnored hl hs => exact .endIgnored hl hs
  | inert hi => exact .inert hi

/-- Settles O45: resting and ending a run do not look at the queue, and the instruction of a step does the same with
more behind it (`ExecCase.queueBehind`). -/
theorem laterAnswersDoNotMatter : Obligations.LaterAnswersDoNotMatter := by
  intro s t more h hw
  obtain ⟨hr, rfl⟩ | ⟨hr, hend, rfl⟩ | ⟨hr, -, i, hi, hx⟩ := step_next_cases h
  · exact step_of_not_running (s := t.queueBehind more) hr
  · exact step_of_end (s := s.queueBehind more) hr hend
  · exact (step_of_instr (s := s.queueBehind more) hr hi).trans
      (exec_of_case ((exec_next_cases hx).queueBehind hw more))

end Sys2Proof.Machine
end

section
/-! SUPPORT. The STATUS word (10_state.md R31; decisions D9, D10): each field at its bits, and the codes. -/

namespace Sys2Proof.Machine

open Sys2Proof

/-- The five fields of an 8-bit word laid out as in R31 are read back at their bits. -/
theorem statusLayout : ∀ (p : Bool) (e : BitVec 3) (o i : Bool) (r : BitVec 2),
    let w : BitVec 8 := BitVec.ofBool p ++ e ++ BitVec.ofBool o ++ BitVec.ofBool i ++ r
    w.extractLsb' 0 2 = r ∧ w.getLsbD 2 = i ∧ w.getLsbD 3 = o ∧ w.extractLsb' 4 3 = e ∧ w.getLsbD 7 = p := by
  decide

theorem RunState.code_injective {a b : RunState} (h : a.code = b.code) : a = b := by
  revert h
  cases a <;> cases b <;> decide

/-- Code 7 is no error's (R180). -/
theorem Status.errCode_ne_seven (t : Status) : t.errCode ≠ 7 := by
  unfold Status.errCode
  split
  · decide
  · next k _ => cases k <;> decide

/-- The error that a code of R180 stands for. -/
def errOfCode (c : BitVec 3) : Option ErrKind :=
  [none, some .dataIndexOutOfBounds, some .unexpectedLoopEnd, some .unterminatedLoop, some .invalidMemoryStepSize,
    some .capacityExceeded, some .programTooLarge].getD c.toNat none

theorem errOfCode_errCode (t : Status) : errOfCode t.errCode = t.err := by
  unfold Status.errCode
  split
  · next h => rw [h]; rfl
  · next k h => rw [h]; cases k <;> rfl

theorem Status.word_fields (t : Status) :
    t.word.extractLsb' 0 2 = t.run.code ∧ t.word.getLsbD 2 = t.waitIn ∧ t.word.getLsbD 3 = t.waitOut ∧
      t.word.extractLsb' 4 3 = t.errCode ∧ t.word.getLsbD 7 = t.policy :=
  statusLayout t.policy t.errCode t.waitOut t.waitIn t.run.code

/-- Equal words have equal fields, and the codes of RUN and ERR stand for one value each. -/
theorem Status.word_injective {t u : Status} (h : t.word = u.word) : t = u := by
  obtain ⟨hrun, hin, hout, herr, hpolicy⟩ := t.word_fields
  obtain ⟨hrun', hin', hout', herr', hpolicy'⟩ := u.word_fields
  rw [h] at hrun hin hout herr hpolicy
  have hr : t.run = u.run := RunState.code_injective (hrun.symm.trans hrun')
  have he : t.err = u.err := by rw [← errOfCode_errCode, ← herr, herr', errOfCode_errCode]
  cases t
  cases u
  simp only [Status.mk.injEq]
  exact ⟨hr, hin.symm.trans hin', hout.symm.trans hout', he, hpolicy.symm.trans hpolicy'⟩

/-- Settles O47: the fields are read back at their bits (`Status.word_fields`), which determine the status
(`Status.word_injective`). -/
theorem statusWordLayout : Obligations.StatusWordLayout := by
  refine ⟨fun t => ?_, fun t u => Status.word_injective⟩
  obtain ⟨hrun, hin, hout, herr, hpolicy⟩ := t.word_fields
  exact ⟨hrun, hin, hout, herr, hpolicy, t.errCode_ne_seven⟩

end Sys2Proof.Machine
end

section
/-! SUPPORT. Where cells are written (20_memory.md R52; decision D21): an internal step of the FSM keeps the tape or runs
an instruction, and no instruction writes outside the tape. -/

namespace Sys2Proof.Machine

open Sys2Proof

/-- Every cell that `t` holds changed lies on its tape. -/
def WritesInside (s t : State) : Prop := ∀ a, t.cell a ≠ s.cell a → a < t.len

theorem WritesInside.of_tape_eq {s t : State} (h : t.tape = s.tape) : WritesInside s t :=
  fun a ha => absurd (congrArg (Memory.read · a) h) ha

/-- An instruction writes the current cell, which is inside the tape, or the cells that growth creates. -/
theorem ExecCase.writesInside {i : Instr} {s t : State} (c : ExecCase i s t) (hm : Memory.wf s.tape) :
    WritesInside s t := by
  intro a ha
  obtain hall | ⟨-, hp, hlen, hrest⟩ | ⟨-, hrest⟩ := c.cells hm
  · exact absurd (hall a) ha
  · have hap : a = s.p := not_not.1 fun hne => ha (hrest a hne)
    omega
  · have hnew : ¬ (a < s.len ∨ t.len ≤ a) := fun hout => ha (hrest a hout)
    omega

theorem step_writesInside {s t : State} (hm : Memory.wf s.tape) (h : step s = .next t) : WritesInside s t := by
  obtain ⟨-, rfl⟩ | ⟨-, -, rfl⟩ | ⟨-, -, i, -, hx⟩ := step_next_cases h
  · exact .of_tape_eq rfl
  · exact .of_tape_eq rfl
  · exact (exec_next_cases hx).writesInside hm

theorem enterLoop_tape (s : State) : (enterLoop s).tape = s.tape := by
  obtain ⟨-, e⟩ | ⟨-, -, e⟩ | ⟨-, -, e⟩ := enterLoop_cases s
  · rw [e]; rfl
  · rw [e]; rfl
  · rw [e]; rfl

theorem emit_tape (v : Byte) (s : State) : (emit v s).tape = s.tape := by
  obtain ⟨-, e⟩ | ⟨-, e⟩ := emit_cases v s
  · rw [e]; rfl
  · rw [e]; rfl

theorem fsmScan_tape (j d : Nat) (s : State) : (fsmScan j d s).tape = s.tape := by
  unfold fsmScan
  split
  · rfl
  · split
    · rfl
    · split
      · split <;> rfl
      · rfl

theorem fsmFetch_tape {s t : State} (h : fsmFetch s = .next t) : t.tape = s.tape := by
  unfold fsmFetch at h
  split at h
  · cases h; rfl
  · split at h
    · cases h; rfl
    · cases h

/-- A cell access whose action keeps the tape keeps it in every case. -/
theorem accessCell_tape {s t : State} {act : Byte → State} (hact : ∀ v, (act v).tape = s.tape)
    (h : accessCell s (fun v => .next (act v)) = .next t) : t.tape = s.tape := by
  obtain ⟨-, h⟩ | ⟨-, -, rfl⟩ := accessCell_next.1 h
  · exact next_eq_next_iff.1 h ▸ hact _
  · rfl

/-- EXEC keeps the tape where it starts a scan or a wait, and else is the instruction. -/
theorem fsmExec_tape_or_exec {i : Instr} {s t : State} (h : fsmExec i s = .next t) :
    t.tape = s.tape ∨ exec i s = .next t := by
  unfold fsmExec at h
  split at h
  · refine .inl (accessCell_tape (fun v => ?_) h)
    split
    · rfl
    · exact enterLoop_tape s
  · split at h
    · exact .inl (accessCell_tape (act := fun v => s.holdOut v) (fun _ => rfl) h)
    · split at h
      · exact .inl (accessCell_tape (act := fun _ => s.holdIn) (fun _ => rfl) h)
      · exact .inr h

/-- An internal step of the FSM keeps the tape or is an instruction's own step. -/
theorem microStep_tape_or_exec {s t : State} (h : microStep s = .next t) :
    t.tape = s.tape ∨ ∃ i, exec i s = .next t := by
  unfold microStep at h
  split at h
  · split at h
    · exact .inl (fsmFetch_tape h)
    · next i _ => exact (fsmExec_tape_or_exec h).imp_right fun hx => ⟨i, hx⟩
    · exact .inl (next_eq_next_iff.1 h ▸ fsmScan_tape _ _ s)
    · exact .inr ⟨.read, h⟩
    · exact .inl (next_eq_next_iff.1 h ▸ emit_tape _ s)
  all_goals exact .inl (congrArg State.tape (next_eq_next_iff.1 h))

theorem microStep_writesInside {s t : State} (hm : Memory.wf s.tape) (h : microStep s = .next t) :
    WritesInside s t := by
  obtain htape | ⟨i, hx⟩ := microStep_tape_or_exec h
  · exact .of_tape_eq htape
  · exact (exec_next_cases hx).writesInside hm

/-- Settles O58: both kinds of step write inside the tape (`step_writesInside`, `microStep_writesInside`), and a held
READ is a cell access, a fault outside the tape in permissive mode. -/
theorem noCellOutsideTapeIsWritten : Obligations.NoCellOutsideTapeIsWritten := by
  refine ⟨fun s t hm h => h.elim (step_writesInside hm) (microStep_writesInside hm), fun s hr hf hp hs => ?_⟩
  rw [microStep, hr, hf]
  exact accessCell_permissive (Nat.not_lt.2 hp) hs

end Sys2Proof.Machine
end
